-- ==== Sys2Proof/Word.lean ====
section
/-! DEFINITION. The words of the hardware, one name for each width the spec gives (00_scope.md R8, R12;
30_encoding.md R55; 10_state.md R20). -/

namespace Sys2Proof

/-- One frame byte, 0..255 (00_scope.md R8, R14). -/
abbrev Byte := BitVec 8

/-- The 32-bit frame port, byte 0 in the high bits (20_memory.md R42). -/
abbrev Frame := BitVec 32

/-- The 34-bit control word: `rst`, `frame_valid`, `frame` from the top (30_encoding.md R55). -/
abbrev ControlWord := BitVec 34

/-- A 2-bit status code (30_encoding.md R56). -/
abbrev StatusCode := BitVec 2

/-- A 14-bit unsigned pressure count (00_scope.md R8). -/
abbrev PressureCount := BitVec 14

/-- An 11-bit unsigned temperature count (00_scope.md R8). -/
abbrev TemperatureCount := BitVec 11

/-- An IEEE 754 binary32 word (00_scope.md R15). -/
abbrev Binary32 := BitVec 32

end Sys2Proof
end

