-- ==== Sys2Proof/Syntax.lean ====
section
/-! DEFINITION. The operations a control word selects, one constructor for each row of spec/opcode_table.json
(30_encoding.md R61), and the written notation of 30_encoding.md R64. -/

namespace Sys2Proof

/-- The four `SensorStatus` values (00_scope.md R18, 30_encoding.md R56). -/
inductive SensorStatus where
  | normal
  | commandMode
  | staleData
  | diagnostic
deriving DecidableEq, Repr

/-- One operation, with everything that stands on the inputs at its edge. The bits an operation ignores
(30_encoding.md R60) are kept here so that a control word is no more than another way to write an `Instr`; that they
have no effect is said by the meanings (log 8). -/
inductive Instr where
  /-- RESET (40_frame_decoder.md R71): `frame_valid` and the frame are ignored. -/
  | reset (frameValid : Bool) (frame : Frame)
  /-- HOLD (40_frame_decoder.md R72): the frame is ignored. -/
  | hold (frame : Frame)
  /-- DECODE.NORMAL (40_frame_decoder.md R74): a frame with status code 0. -/
  | decodeNormal (frame : Frame)
  /-- DECODE.CMD (40_frame_decoder.md R75): a frame with status code 1. -/
  | decodeCmd (frame : Frame)
  /-- DECODE.STALE (40_frame_decoder.md R76): a frame with status code 2. -/
  | decodeStale (frame : Frame)
  /-- DECODE.DIAG (40_frame_decoder.md R77): a frame with status code 3. -/
  | decodeDiag (frame : Frame)
deriving DecidableEq, Repr

/-- A line of the spec's notation for operation sequences that is no abbreviation of another line; `raw` gives the
control word itself (30_encoding.md R64). -/
inductive AsmOp where
  | reset
  | hold
  | decode (b0 b1 b2 b3 : Byte)
  | raw (cw : ControlWord)
deriving DecidableEq, Repr

/-- A line of the notation, the pseudo-operations among them (30_encoding.md R64). -/
inductive AsmLine where
  | op (o : AsmOp)
  | nop
  | decodeW (w : Frame)
  | frameNormal (p : PressureCount) (t : TemperatureCount)
  | frameCmd (p : PressureCount) (t : TemperatureCount)
  | frameStale (p : PressureCount) (t : TemperatureCount)
  | frameDiag (p : PressureCount) (t : TemperatureCount)
deriving DecidableEq, Repr

end Sys2Proof
end

