-- ==== Sys2Proof/Machine/Operands.lean ====
section
/-! DEFINITION. The frame as an operand: its bytes, its four fields and the status code's meaning (20_memory.md R42,
30_encoding.md R56 to R60, R65). No operation has another operand, and none is sign-extended or scaled. -/

namespace Sys2Proof.Machine

/-- Byte `k` of the frame, k = 0..3, byte 0 first transferred: port bits `31-8k : 24-8k` (20_memory.md R42). -/
def frameByte (frame : Frame) (k : Nat) : Byte := frame.extractLsb' (24 - 8 * k) 8

/-- The frame made of four bytes, byte 0 in the high bits (20_memory.md R42). -/
def frameOfBytes (b0 b1 b2 b3 : Byte) : Frame := b0 ++ b1 ++ b2 ++ b3

/-- `status_f = frame[31:30]` (30_encoding.md R56). -/
def statusField (frame : Frame) : StatusCode := frame.extractLsb' 30 2

/-- `pcount_f = frame[29:16]` (30_encoding.md R58). -/
def pcountField (frame : Frame) : PressureCount := frame.extractLsb' 16 14

/-- `tcount_f = frame[15:5]` (30_encoding.md R59). -/
def tcountField (frame : Frame) : TemperatureCount := frame.extractLsb' 5 11

/-- `frame[4:0]`, which nothing reads (30_encoding.md R60). -/
def unusedField (frame : Frame) : BitVec 5 := frame.extractLsb' 0 5

/-- The frame with the given four fields (30_encoding.md R57). -/
def frameOfFields (code : StatusCode) (p : PressureCount) (t : TemperatureCount) (unused : BitVec 5) : Frame :=
  code ++ p ++ t ++ unused

/-- The code of a `SensorStatus` (30_encoding.md R56). -/
def statusCode : SensorStatus → StatusCode
  | .normal => 0b00#2
  | .commandMode => 0b01#2
  | .staleData => 0b10#2
  | .diagnostic => 0b11#2

/-- The `SensorStatus` a code maps to; the mapping is total (30_encoding.md R56). -/
def statusOfCode (code : StatusCode) : SensorStatus :=
  if code = 0b00#2 then .normal
  else if code = 0b01#2 then .commandMode
  else if code = 0b10#2 then .staleData
  else .diagnostic

end Sys2Proof.Machine
end

