-- ==== Sys2Proof/WellFormed.lean ====
section
/-! DEFINITION. Which terms of `Instr` are operations of the hardware: a DECODE form carries a frame of its own
status code (30_encoding.md R61); RESET and HOLD take any inputs. -/

namespace Sys2Proof

/-- The condition each row of 30_encoding.md R61 puts on `frame[31:30]`. -/
def Instr.wellFormed : Instr → Bool
  | .reset _ _ => true
  | .hold _ => true
  | .decodeNormal frame => Machine.statusField frame == 0b00#2
  | .decodeCmd frame => Machine.statusField frame == 0b01#2
  | .decodeStale frame => Machine.statusField frame == 0b10#2
  | .decodeDiag frame => Machine.statusField frame == 0b11#2

end Sys2Proof
end

