-- ==== Sys2Proof/Decode.lean ====
section
/-! DEFINITION. The operation map of 30_encoding.md R61 as a total decoder, its encoder, the mask-and-match table
of the same rule, and the assembler of 30_encoding.md R64. -/

namespace Sys2Proof

/-- `rst`, bit 33 of the control word (30_encoding.md R55). -/
def rstBit (cw : ControlWord) : Bool := cw.getLsbD 33

/-- `frame_valid`, bit 32 of the control word (30_encoding.md R55). -/
def frameValidBit (cw : ControlWord) : Bool := cw.getLsbD 32

/-- `frame`, bits 31:0 of the control word (30_encoding.md R55). -/
def framePort (cw : ControlWord) : Frame := cw.extractLsb' 0 32

/-- The DECODE form a frame selects by its own status code, not by the held one (30_encoding.md R61, 10_state.md R21). -/
def decodeFrame (frame : Frame) : Instr :=
  match Machine.statusOfCode (Machine.statusField frame) with
  | .normal => .decodeNormal frame
  | .commandMode => .decodeCmd frame
  | .staleData => .decodeStale frame
  | .diagnostic => .decodeDiag frame

/-- The operation a control word selects. RESET wins over a frame strobe; no control word is illegal
(30_encoding.md R61, R62). -/
def decode (cw : ControlWord) : Instr :=
  if rstBit cw then .reset (frameValidBit cw) (framePort cw)
  else if frameValidBit cw then decodeFrame (framePort cw)
  else .hold (framePort cw)

/-- The one reason a number is no control word. -/
inductive DecodeError where
  /-- Raised by `decodeNat` on a number of more than 34 bits: the control word has no such bits (30_encoding.md R55).
  Safe: no edge of the hardware samples such a number. -/
  | widerThanControlWord
deriving DecidableEq, Repr

/-- The decoder on any number: the number's bits are the control word's (30_encoding.md R55), and a number that does not
fit 34 bits is rejected by name (log 9). -/
def decodeNat (w : Nat) : Except DecodeError Instr :=
  if w < 2 ^ 34 then .ok (decode (BitVec.ofNat 34 w)) else .error .widerThanControlWord

/-- The decoder on a word numbered as spec/opcode_table.json numbers it: `nbits` bits of `w`, every bit above them 0
(log 9). -/
def decodeTableWord (nbits w : Nat) : Option Instr :=
  match decodeNat (w % 2 ^ nbits) with
  | .ok i => some i
  | .error _ => none

/-- The control word `rst`, `frame_valid`, `frame` (30_encoding.md R55). -/
def controlWord (rst frameValid : Bool) (frame : Frame) : ControlWord :=
  BitVec.ofBool rst ++ BitVec.ofBool frameValid ++ frame

/-- The control word of a well-formed operation (30_encoding.md R61). -/
def encode : Instr → ControlWord
  | .reset frameValid frame => controlWord true frameValid frame
  | .hold frame => controlWord false false frame
  | .decodeNormal frame => controlWord false true frame
  | .decodeCmd frame => controlWord false true frame
  | .decodeStale frame => controlWord false true frame
  | .decodeDiag frame => controlWord false true frame

/-- One row of the table of masks of 30_encoding.md R61. -/
structure OpcodeRow where
  mnemonic : String
  mask     : ControlWord
  pattern  : ControlWord
deriving DecidableEq, Repr

/-- The row holds of the control word. -/
def OpcodeRow.selects (row : OpcodeRow) (cw : ControlWord) : Bool := cw &&& row.mask == row.pattern

/-- The row of an operation (30_encoding.md R61, "As masks over the 34-bit word"). -/
def opcodeRow : Instr → OpcodeRow
  | .reset _ _ => ⟨"RESET", 0x200000000#34, 0x200000000#34⟩
  | .hold _ => ⟨"HOLD", 0x300000000#34, 0x000000000#34⟩
  | .decodeNormal _ => ⟨"DECODE.NORMAL", 0x3C0000000#34, 0x100000000#34⟩
  | .decodeCmd _ => ⟨"DECODE.CMD", 0x3C0000000#34, 0x140000000#34⟩
  | .decodeStale _ => ⟨"DECODE.STALE", 0x3C0000000#34, 0x180000000#34⟩
  | .decodeDiag _ => ⟨"DECODE.DIAG", 0x3C0000000#34, 0x1C0000000#34⟩

/-- The six rows, in the order of 30_encoding.md R61. -/
def opcodeTable : List OpcodeRow :=
  [opcodeRow (.reset false 0#32), opcodeRow (.hold 0#32), opcodeRow (.decodeNormal 0#32), opcodeRow (.decodeCmd 0#32),
    opcodeRow (.decodeStale 0#32), opcodeRow (.decodeDiag 0#32)]

/-- `DECODE.W w` expands to `DECODE` of the four bytes of `w` (30_encoding.md R64). -/
def expandWord (w : Frame) : AsmOp :=
  .decode (Machine.frameByte w 0) (Machine.frameByte w 1) (Machine.frameByte w 2) (Machine.frameByte w 3)

/-- The line a line expands to (30_encoding.md R64, the table of pseudo-operations). -/
def expand : AsmLine → AsmOp
  | .op o => o
  | .nop => .hold
  | .decodeW w => expandWord w
  | .frameNormal p t => expandWord (Machine.frameOfFields 0b00#2 p t 0#5)
  | .frameCmd p t => expandWord (Machine.frameOfFields 0b01#2 p t 0#5)
  | .frameStale p t => expandWord (Machine.frameOfFields 0b10#2 p t 0#5)
  | .frameDiag p t => expandWord (Machine.frameOfFields 0b11#2 p t 0#5)

/-- The control word of an expanded line (30_encoding.md R64). -/
def assembleOp : AsmOp → ControlWord
  | .reset => controlWord true false 0#32
  | .hold => controlWord false false 0#32
  | .decode b0 b1 b2 b3 => controlWord false true (Machine.frameOfBytes b0 b1 b2 b3)
  | .raw cw => cw

/-- The control word of a line (30_encoding.md R64). -/
def assemble (line : AsmLine) : ControlWord := assembleOp (expand line)

end Sys2Proof
end

