-- ==== Sys2Proof/Config.lean ====
section
/-! DEFINITION. What the spec leaves to the instance or leaves open, as constants with no value: nothing
can be proved about any of them but what holds of every value. `Machine.State.reset` takes the first three as
its parameters; a statement over every state covers every choice of them. -/

namespace Sys2Proof

/-- The word on the `cal_min` port of the instance that `State.reset` describes (00_scope.md R11,
10_state.md R27: per-instance configuration). DESIGN CHOICE, log 2. -/
opaque Config.calMin : Binary32

/-- The word on the `cal_max` port of the instance that `State.reset` describes (00_scope.md R11,
10_state.md R27). DESIGN CHOICE, log 2. -/
opaque Config.calMax : Binary32

/-- `STATUS_RESET`: "OPEN, a named parameter, any value 0..3" (92_eei_decisions.md D5, 10_state.md R31).
DESIGN CHOICE, log 3. -/
opaque Config.statusReset : StatusCode

/-- What the `pressure` output shows at the given edge while a calibration word is not finite: "any 32-bit value,
possibly a different one at each cycle" (41_linear_interpolator.md R93). A free value; DESIGN CHOICE, log 4. -/
opaque Config.unspecifiedPressure : Nat → Binary32

end Sys2Proof
end

