-- ==== Sys2Proof/Machine/State.lean ====
section
/-! DEFINITION. The state: the four registers of 10_state.md R20, the parameters of the instance (10_state.md R27, R31),
and the model's own record of what the host drives. Plain data. -/

namespace Sys2Proof.Machine

/-- The reasons the machine stops with a fault: there are none. "A model's step for this core has no fault outcome"
(60_exceptions.md R110), and the type has no value, so no operation can raise one (safe: nothing is left out). -/
inductive Fault where
deriving DecidableEq, Repr

/-- The reasons for which no state is given. -/
inductive Refusal where
  /-- An instruction with no meaning yet; raised by `exec`'s arms only, and by none of them now. Safe. -/
  | notModelled (mnemonic : String)
  /-- Raised by `launch` when `cal_min` or `cal_max` is an infinity or a NaN: "A model refuses such a configuration at launch"
  (41_linear_interpolator.md R93). Never raised by a step (log 5). Safe. -/
  | nonFiniteCalibration
deriving DecidableEq, Repr

/-- The machine between two clock edges. -/
structure State where
  /-- The `status` register: the code of the last decoded frame (10_state.md R21). -/
  status : StatusCode
  /-- The `status_valid` register: a frame has been decoded since RESET (10_state.md R22). -/
  statusValid : Bool
  /-- The `pressure_count` register (10_state.md R23). -/
  pressureCount : PressureCount
  /-- The `temperature_count` register (10_state.md R24). -/
  temperatureCount : TemperatureCount
  /-- The static input `cal_min`, a parameter that no operation writes (10_state.md R27; log 2). -/
  calMin : Binary32
  /-- The static input `cal_max`, a parameter that no operation writes (10_state.md R27; log 2). -/
  calMax : Binary32
  /-- The OPEN parameter `STATUS_RESET` (10_state.md R31; log 3). -/
  statusReset : StatusCode
  /-- The model's own: the control words the host drives at the coming edges, next edge first (30_encoding.md R55,
  10_state.md R26; log 1). -/
  inputs : List ControlWord
  /-- The model's own: how many edges have passed, for the free value of 41_linear_interpolator.md R93 alone (log 4). -/
  edge : Nat
deriving DecidableEq, Repr

/-- The state RESET leaves (10_state.md R31), in an instance whose parameters are left open, with nothing driven on the
inputs yet (70_reset_and_hazards.md R131; logs 1 to 4). -/
def State.reset : State where
  status := Config.statusReset
  statusValid := false
  pressureCount := 0#14
  temperatureCount := 0#11
  calMin := Config.calMin
  calMax := Config.calMax
  statusReset := Config.statusReset
  inputs := []
  edge := 0

end Sys2Proof.Machine
end

