-- ==== Sys2Proof/Machine/Flags.lean ====
section
/-! DEFINITION. The flag-like state, `status` and `status_valid` (10_state.md R30), and the two ways it is written. -/

namespace Sys2Proof.Machine

/-- The part every DECODE form shares: the frame's status code goes to `status`, and `status_valid` is set
(40_frame_decoder.md R73). -/
def recordStatus (frame : Frame) (s : State) : State :=
  { s with status := statusField frame, statusValid := true }

/-- What RESET does to the flags (40_frame_decoder.md R71). -/
def clearStatus (s : State) : State :=
  { s with status := s.statusReset, statusValid := false }

end Sys2Proof.Machine
end

