-- ==== Sys2Proof/Machine/Ops.lean ====
section
/-! DEFINITION. The named operations over the counts and over the clock edge. There is no memory (20_memory.md R40), no
exception to take and none to return from (60_exceptions.md R110, R115, R116), so there is no operation for any of them. -/

namespace Sys2Proof.Machine

/-- Replace both held counts (40_frame_decoder.md R71, R74). -/
def writeCounts (p : PressureCount) (t : TemperatureCount) (s : State) : State :=
  { s with pressureCount := p, temperatureCount := t }

/-- The control word of an edge at which the host drives nothing: `rst = 0`, `frame_valid = 0`, frame 0, so that "the core
performs HOLD at each edge until the host drives a DECODE" (70_reset_and_hazards.md R131, 30_encoding.md R64; log 1). -/
def idleWord : ControlWord := 0#34

/-- The control word the core samples at the next edge (30_encoding.md R55). -/
def sampledWord (s : State) : ControlWord := s.inputs.headD idleWord

/-- The state in which the operation of the edge runs: its control word has been sampled, the edge is counted, and no register
has changed (40_frame_decoder.md R70; logs 1 and 4). -/
def takeEdge (s : State) : State := { s with inputs := s.inputs.tail, edge := s.edge + 1 }

/-- The same machine with the given control words at the coming edges (10_state.md R26). -/
def drive (words : List ControlWord) (s : State) : State := { s with inputs := words }

end Sys2Proof.Machine
end

