-- ==== Sys2Proof/Machine/Control.lean ====
section
/-! DEFINITION. RESET and HOLD. -/

namespace Sys2Proof.Machine

/-- RESET (40_frame_decoder.md R71): both counts 0, `status` STATUS_RESET, `status_valid` 0; `frame_valid` and the frame are
ignored. -/
def execReset (_frameValid : Bool) (_frame : Frame) (s : State) : Host.Outcome State Fault Refusal :=
  .next (clearStatus (writeCounts 0#14 0#11 s))

/-- HOLD (40_frame_decoder.md R72): no register is written, and the frame is ignored. -/
def execHold (_frame : Frame) (s : State) : Host.Outcome State Fault Refusal :=
  .next s

end Sys2Proof.Machine
end

