-- ==== Sys2Proof/Machine/FrameDecoder.lean ====
section
/-! DEFINITION. The four DECODE forms (40_frame_decoder.md R73 to R77). -/

namespace Sys2Proof.Machine

/-- DECODE.NORMAL (40_frame_decoder.md R74): record the status and replace both counts; nothing is clamped (R79). -/
def execDecodeNormal (frame : Frame) (s : State) : Host.Outcome State Fault Refusal :=
  .next (writeCounts (pcountField frame) (tcountField frame) (recordStatus frame s))

/-- DECODE.CMD (40_frame_decoder.md R75): record the status, keep the counts. -/
def execDecodeCmd (frame : Frame) (s : State) : Host.Outcome State Fault Refusal :=
  .next (recordStatus frame s)

/-- DECODE.STALE (40_frame_decoder.md R76): record the status, keep the counts. -/
def execDecodeStale (frame : Frame) (s : State) : Host.Outcome State Fault Refusal :=
  .next (recordStatus frame s)

/-- DECODE.DIAG (40_frame_decoder.md R77): record the status, keep the counts. -/
def execDecodeDiag (frame : Frame) (s : State) : Host.Outcome State Fault Refusal :=
  .next (recordStatus frame s)

end Sys2Proof.Machine
end

