-- ==== Sys2Proof/Machine/Dispatch.lean ====
section
/-! DEFINITION. Which meaning each operation has (40_frame_decoder.md R70). -/

namespace Sys2Proof.Machine

def exec (i : Instr) (s : State) : Host.Outcome State Fault Refusal :=
  match i with
  | .reset frameValid frame => Sys2Proof.Machine.execReset frameValid frame s
  | .hold frame => Sys2Proof.Machine.execHold frame s
  | .decodeNormal frame => Sys2Proof.Machine.execDecodeNormal frame s
  | .decodeCmd frame => Sys2Proof.Machine.execDecodeCmd frame s
  | .decodeStale frame => Sys2Proof.Machine.execDecodeStale frame s
  | .decodeDiag frame => Sys2Proof.Machine.execDecodeDiag frame s

end Sys2Proof.Machine
end

