-- ==== Sys2Proof/Machine/Step.lean ====
section
/-! DEFINITION. One rising clock edge (40_frame_decoder.md R70). -/

namespace Sys2Proof.Machine

/-- One rising clock edge: sample the control word, perform the operation it selects (40_frame_decoder.md R70). -/
def step (s : State) : Host.Outcome State Fault Refusal :=
  exec (decode (sampledWord s)) (takeEdge s)

/-- The state with the word that spec/opcode_table.json numbers as `w` on the inputs at the next edge; the words of later
edges, the registers and the parameters stay (log 10). -/
def State.withFetchWord (s : State) (nbits w : Nat) : State :=
  drive (BitVec.ofNat 34 (w % 2 ^ nbits) :: s.inputs.tail) s

end Sys2Proof.Machine
end

