-- ==== Sys2Proof/Machine/Binary32.lean ====
section
/-! DEFINITION. IEEE 754 binary32 as 00_scope.md R15 states it: the value of a finite word, and the word that
round-to-nearest, ties-to-even gives for a rational (logs 6 and 7). Values are counted in units of 2^-149, the
distance of the smallest subnormal from zero, so that everything is natural-number arithmetic. -/

namespace Sys2Proof.Machine

/-- The sign bit, 1 for negative (00_scope.md R15). -/
def signBit (w : Binary32) : Bool := w.getLsbD 31

/-- The 8 exponent bits, bias 127 (00_scope.md R15). -/
def exponentField (w : Binary32) : BitVec 8 := w.extractLsb' 23 8

/-- The 23 fraction bits (00_scope.md R15). -/
def fractionField (w : Binary32) : BitVec 23 := w.extractLsb' 0 23

/-- Neither an infinity nor a NaN (10_state.md R28). -/
def isFinite (w : Binary32) : Bool := exponentField w != 0xFF#8

/-- The magnitude of a finite word in units of 2^-149: a subnormal is its fraction, and a normal of exponent field `e`
is `(2^23 + fraction) * 2^(e - 1)` (00_scope.md R15). -/
def magnitudeUnits (w : Binary32) : Nat :=
  if exponentField w = 0#8 then (fractionField w).toNat
  else (2 ^ 23 + (fractionField w).toNat) * 2 ^ ((exponentField w).toNat - 1)

/-- `val32(w)`, "the real value of a finite binary32 word"; an infinity or a NaN has none (00_scope.md R15). -/
def val32 (w : Binary32) : Option Rat :=
  if isFinite w then
    some (if signBit w then -((magnitudeUnits w : Rat) / 2 ^ 149) else (magnitudeUnits w : Rat) / 2 ^ 149)
  else none

/-- The natural number nearest `n / d`; of two equally near ones, the even one. -/
def roundHalfEven (n d : Nat) : Nat :=
  let floor := n / d
  let rest := n % d
  if 2 * rest < d then floor
  else if d < 2 * rest then floor + 1
  else floor + floor % 2

/-- The low 31 bits of the binary32 word nearest the magnitude of `n / d` units of 2^-149, were the exponent unbounded. The
quantum is `2^shift` units: 1 below 2^24 units (the subnormals and the first normal binade), and the value of the lowest of
24 significant bits above. A significand that rounds up to 2^24 carries into the exponent field by the same sum. -/
def magnitudeWord (n d : Nat) : Nat :=
  let shift := Nat.log2 (n / d) - 23
  shift * 2 ^ 23 + roundHalfEven n (d * 2 ^ shift)

/-- `rne32(q)` (00_scope.md R15): nearest, ties to even; a magnitude that rounds to 2^128 or more is the infinity
`0x7F800000` of its sign; `q = 0` gives `+0.0`; subnormals are kept. The sign is the sign of `q`, also where a negative `q` rounds to
zero (log 6). -/
def rne32 (q : Rat) : Binary32 :=
  BitVec.ofBool (decide (q < 0)) ++ BitVec.ofNat 31 (min (magnitudeWord (q.num.natAbs * 2 ^ 149) q.den) 0x7F800000)

/-- The place of a word in the order of the extended reals: the two zeros share place 0, and the infinities stand at the
ends (00_scope.md R15). Statements use it to say that one output is at most another; no operation reads it. -/
def orderPlace (w : Binary32) : Int :=
  if signBit w then -((w.toNat % 2 ^ 31 : Nat) : Int) else ((w.toNat % 2 ^ 31 : Nat) : Int)

end Sys2Proof.Machine
end

