-- ==== Sys2Proof/Machine/Interpolator.lean ====
section
/-! DEFINITION. The linear_interpolator: each conversion as an exact rational function and as the word the hardware
gives (41_linear_interpolator.md). -/

namespace Sys2Proof.Machine

/-- `MIN_COUNT = 1638.4`, exactly 8192/5 (00_scope.md R9, 90_conflicts.md C1). -/
def minCount : Rat := 8192 / 5

/-- `MAX_COUNT = 14745.6`, exactly 73728/5 (00_scope.md R9, 90_conflicts.md C1). -/
def maxCount : Rat := 73728 / 5

/-- `T_DEN` (00_scope.md R10). -/
def temperatureDenominator : Rat := 2047

/-- `T_SPAN` (00_scope.md R10). -/
def temperatureSpan : Rat := 200

/-- `T_OFF` (00_scope.md R10). -/
def temperatureOffset : Rat := 50

/-- The one rounding of both conversions (92_eei_decisions.md D8). A core with another format or rounding changes this
definition alone (93_implementation_defined.md U10; log 7). -/
def roundOutput (q : Rat) : Binary32 := rne32 q

/-- `PFC_exact`, on calibration values `A`, `B` and a rational count; not clamped (41_linear_interpolator.md R86, R89, R91). -/
def pfcExact (c A B : Rat) : Rat := (c - minCount) * (B - A) / (maxCount - minCount) + A

/-- `PFC` (41_linear_interpolator.md R87): one rounding of the exact value. Where a calibration word is not finite the spec
gives no value (R93), and none is given here. -/
def pfc (c : PressureCount) (a b : Binary32) : Option Binary32 :=
  match val32 a, val32 b with
  | some A, some B => some (roundOutput (pfcExact c.toNat A B))
  | _, _ => none

/-- `TFC_exact` (41_linear_interpolator.md R94). -/
def tfcExact (c : Rat) : Rat := c / temperatureDenominator * temperatureSpan - temperatureOffset

/-- `TFC` (41_linear_interpolator.md R95). -/
def tfc (c : TemperatureCount) : Binary32 := roundOutput (tfcExact c.toNat)

end Sys2Proof.Machine
end

