-- ==== Sys2Proof/Machine/Launch.lean ====
section
/-! DEFINITION. Launching a run (70_reset_and_hazards.md R130, R132). -/

namespace Sys2Proof.Machine

/-- A run's first state: the calibration is on its ports, RESET has been performed, and the host will drive the given
control words (70_reset_and_hazards.md R130, R132). A calibration word that is not finite is refused, the one refusal of
60_exceptions.md R110 (log 5). -/
def launch (calMin calMax : Binary32) (statusReset : StatusCode) (words : List ControlWord) :
    Host.Outcome State Fault Refusal :=
  if isFinite calMin && isFinite calMax then
    .next { State.reset with
      status := statusReset, calMin := calMin, calMax := calMax, statusReset := statusReset, inputs := words }
  else .refused .nonFiniteCalibration

end Sys2Proof.Machine
end

