-- ==== Sys2Proof/Machine/Run.lean ====
section
/-! DEFINITION. A run: one step after another, over the control words the host drives (40_frame_decoder.md R70). -/

namespace Sys2Proof.Machine

/-- `k` clock edges (40_frame_decoder.md R70: "a run is the fold of `step` over the host's sequence of control words"). -/
def run : Nat → State → Host.Outcome State Fault Refusal
  | 0, s => .next s
  | k + 1, s =>
    match step s with
    | .next t => run k t
    | .fault r => .fault r
    | .refused r => .refused r

end Sys2Proof.Machine
end

