-- ==== Sys2Proof/Machine/Outputs.lean ====
section
/-! DEFINITION. The output ports as functions of the state: reading one is not a step (42_readout.md R100, R104). -/

namespace Sys2Proof.Machine

/-- The `pressure` output (41_linear_interpolator.md R88); with a calibration word that is not finite, a free value that may differ
at each edge (R93; log 4). -/
def pressureOut (s : State) : Binary32 :=
  (pfc s.pressureCount s.calMin s.calMax).getD (Config.unspecifiedPressure s.edge)

/-- The `temperature` output (41_linear_interpolator.md R95). -/
def temperatureOut (s : State) : Binary32 := tfc s.temperatureCount

/-- The six output ports; the core has no other (42_readout.md R100). -/
structure Outputs where
  status : StatusCode
  statusValid : Bool
  pressureCount : PressureCount
  temperatureCount : TemperatureCount
  pressure : Binary32
  temperature : Binary32
deriving DecidableEq, Repr

/-- What the ports show (42_readout.md R100 to R103). -/
def outputs (s : State) : Outputs where
  status := s.status
  statusValid := s.statusValid
  pressureCount := s.pressureCount
  temperatureCount := s.temperatureCount
  pressure := pressureOut s
  temperature := temperatureOut s

/-- The `SensorStatus` the outputs report, as the source's `status()` gives it: the `status` output read through
30_encoding.md R56, and none while `status_valid = 0`, when it carries no meaning (42_readout.md R101,
70_reset_and_hazards.md R135). -/
def reportedStatus (s : State) : Option SensorStatus :=
  if (outputs s).statusValid then some (statusOfCode (outputs s).status) else none

end Sys2Proof.Machine
end

