-- ==== Sys2Proof/Safety.lean ====
section
/-! DEFINITION. What a host may rely on: a legal calibration, when the outputs are a reading, and the relation
between the registers that every operation keeps. -/

namespace Sys2Proof.Machine

/-- The calibration is legal: both words are finite; an inverted or flat range is legal (10_state.md R28). -/
def State.calibrationLegal (s : State) : Bool := isFinite s.calMin && isFinite s.calMax

/-- "The counts hold a reading from the frame just decoded only when `status_valid = 1` and `status = 0`"
(70_reset_and_hazards.md R134). -/
def State.countsAreFresh (s : State) : Bool := s.statusValid && s.status == 0b00#2

/-- Between RESET and the first DECODE the registers are as RESET left them (42_readout.md R105). -/
def State.quietUntilDecoded (s : State) : Prop :=
  s.statusValid = false → s.status = s.statusReset ∧ s.pressureCount = 0#14 ∧ s.temperatureCount = 0#11

/-- The bound under which no pressure can overflow: `|A| + 1.125 |B - A| < 3.4e38` (41_linear_interpolator.md R92). -/
def calibrationBounded (A B : Rat) : Prop := |A| + 9 / 8 * |B - A| < 34 * 10 ^ 37

/-- The control word asks for RESET (30_encoding.md R61). -/
def isResetWord (cw : ControlWord) : Bool := cw.getLsbD 33

/-- The control word asks for HOLD (30_encoding.md R61). -/
def isHoldWord (cw : ControlWord) : Bool := !cw.getLsbD 33 && !cw.getLsbD 32

/-- The control word strobes a frame (30_encoding.md R61). -/
def isDecodeWord (cw : ControlWord) : Bool := !cw.getLsbD 33 && cw.getLsbD 32

/-- The control word strobes a frame with status code Normal (30_encoding.md R61). -/
def isNormalWord (cw : ControlWord) : Bool := isDecodeWord cw && cw.extractLsb' 30 2 == 0b00#2

end Sys2Proof.Machine
end

