-- ==== Sys2Proof/Certificates/Slice0/Obligations.lean ====
section
/-! DEFINITION. The statements, one definition each; none is proved here. `run k s` is `k` clock edges from `s`;
`drive words s` is `s` with those control words at the coming edges. The fields `inputs` and `edge` are the model's own record of
the host's inputs and of the edges (logs 1 and 4): what a statement says of them is no rule of the spec. The fields `calMin`, `calMax`
and `statusReset` are the spec's parameters (logs 2 and 3); a statement over every state holds for every value of them. -/

open Sys2Proof Sys2Proof.Machine

/-! ### Encoding -/

/-- 30_encoding.md R61, R62: decoding and encoding are inverse to each other, on every well-formed operation with every value of
its inputs, and on every control word. -/
def Obligations.DecodeAndEncodeAgree : Prop :=
  (∀ i : Instr, i.wellFormed = true → decode (encode i) = i) ∧
  ∀ cw : ControlWord, (decode cw).wellFormed = true ∧ encode (decode cw) = cw

/-- 30_encoding.md R61, R62: the six masks are the spec's, and every control word is selected by exactly one row, that of the
operation it decodes to. -/
def Obligations.ExactlyOneRowSelectsEachWord : Prop :=
  opcodeTable =
    [⟨"RESET", 0x200000000#34, 0x200000000#34⟩, ⟨"HOLD", 0x300000000#34, 0x000000000#34⟩,
      ⟨"DECODE.NORMAL", 0x3C0000000#34, 0x100000000#34⟩, ⟨"DECODE.CMD", 0x3C0000000#34, 0x140000000#34⟩,
      ⟨"DECODE.STALE", 0x3C0000000#34, 0x180000000#34⟩, ⟨"DECODE.DIAG", 0x3C0000000#34, 0x1C0000000#34⟩] ∧
  ∀ cw : ControlWord, opcodeTable.filter (fun row => row.selects cw) = [opcodeRow (decode cw)]

/-- 95_test_vectors.md V1, V9 to V15: control words written out by the spec decode to the operations it names. -/
def Obligations.VectorWordsDecode : Prop :=
  decode 0x119996660#34 = .decodeNormal 0x19996660#32 ∧
  decode 0x159996660#34 = .decodeCmd 0x59996660#32 ∧
  decode 0x180000000#34 = .decodeStale 0x80000000#32 ∧
  decode 0x1FFFFFFFF#34 = .decodeDiag 0xFFFFFFFF#32 ∧
  decode 0x019996660#34 = .hold 0x19996660#32 ∧
  decode 0x319996660#34 = .reset true 0x19996660#32 ∧
  decode 0x200000000#34 = .reset false 0#32

/-- 20_memory.md R42: byte k of the frame is at port bits `31-8k : 24-8k`, and four bytes make a frame, one way only. -/
def Obligations.FrameBytesArePackedBigEndian : Prop :=
  (∀ (frame : Frame) (k j : Nat), k < 4 → j < 8 → (frameByte frame k).getLsbD j = frame.getLsbD (24 - 8 * k + j)) ∧
  (∀ b0 b1 b2 b3 : Byte,
    frameByte (frameOfBytes b0 b1 b2 b3) 0 = b0 ∧ frameByte (frameOfBytes b0 b1 b2 b3) 1 = b1 ∧
    frameByte (frameOfBytes b0 b1 b2 b3) 2 = b2 ∧ frameByte (frameOfBytes b0 b1 b2 b3) 3 = b3) ∧
  ∀ frame : Frame, frameOfBytes (frameByte frame 0) (frameByte frame 1) (frameByte frame 2) (frameByte frame 3) = frame

/-- 30_encoding.md R57: the four fields, and nothing else, make up the frame. -/
def Obligations.FourFieldsMakeTheFrame : Prop :=
  (∀ frame : Frame,
    frameOfFields (statusField frame) (pcountField frame) (tcountField frame) (unusedField frame) = frame) ∧
  ∀ (code : StatusCode) (p : PressureCount) (t : TemperatureCount) (u : BitVec 5),
    statusField (frameOfFields code p t u) = code ∧ pcountField (frameOfFields code p t u) = p ∧
    tcountField (frameOfFields code p t u) = t ∧ unusedField (frameOfFields code p t u) = u

/-- 30_encoding.md R58, R59: both of the source's formulas for each count, on the frame's bytes as unbounded integers
(00_scope.md R14), give the port field. -/
def Obligations.CountFieldsFollowSourceFormulas : Prop :=
  ∀ (frame : Frame) (b : Nat → Nat), (∀ k, b k = (frameByte frame k).toNat) →
    pcountField frame = frame.extractLsb' 16 14 ∧
    (pcountField frame).toNat = ((b 0 <<< 8) &&& 0x3F00) ||| (b 1 &&& 0xFF) ∧
    (pcountField frame).toNat = ((b 0 &&& 0x3F) <<< 8) ||| b 1 ∧
    tcountField frame = frame.extractLsb' 5 11 ∧
    (tcountField frame).toNat = ((b 2 <<< 3) &&& 0x7F8) ||| ((b 3 >>> 5) &&& 0x7) ∧
    (tcountField frame).toNat = ((b 2 <<< 3) &&& 0x7F8) ||| (b 3 >>> 5)

/-- 30_encoding.md R56: the code is `frame[31:30]`, that is `(byte0 >> 6) & 0b11`; the four codes map one to one to the four
`SensorStatus` values; a DECODE replaces the counts by the frame's for code 0 and keeps them for every other code. -/
def Obligations.StatusCodeIsTotalMap : Prop :=
  (∀ frame : Frame, statusField frame = frame.extractLsb' 30 2 ∧
    (statusField frame).toNat = ((frameByte frame 0).toNat >>> 6) &&& 0b11) ∧
  (statusOfCode 0#2 = .normal ∧ statusOfCode 1#2 = .commandMode ∧ statusOfCode 2#2 = .staleData ∧
    statusOfCode 3#2 = .diagnostic) ∧
  (∀ x : SensorStatus, statusOfCode (statusCode x) = x) ∧
  ∀ (cw : ControlWord) (rest : List ControlWord) (s t : State), isDecodeWord cw = true →
    step (drive (cw :: rest) s) = .next t →
    (statusOfCode (cw.extractLsb' 30 2) = .normal →
      t.pressureCount = cw.extractLsb' 16 14 ∧ t.temperatureCount = cw.extractLsb' 5 11) ∧
    (statusOfCode (cw.extractLsb' 30 2) ≠ .normal →
      t.pressureCount = s.pressureCount ∧ t.temperatureCount = s.temperatureCount)

/-- 30_encoding.md R64: the control word of every line of the notation. -/
def Obligations.AssemblerFollowsNotation : Prop :=
  assemble (.op .reset) = 0x200000000#34 ∧ assemble (.op .hold) = 0x000000000#34 ∧ assemble .nop = 0x000000000#34 ∧
  (∀ b0 b1 b2 b3 : Byte, assemble (.op (.decode b0 b1 b2 b3)) = 0b01#2 ++ b0 ++ b1 ++ b2 ++ b3) ∧
  (∀ w : Frame, assemble (.decodeW w) = 0b01#2 ++ w) ∧
  (∀ (p : PressureCount) (t : TemperatureCount),
    assemble (.frameNormal p t) = 0b01#2 ++ 0b00#2 ++ p ++ t ++ 0#5 ∧
    assemble (.frameCmd p t) = 0b01#2 ++ 0b01#2 ++ p ++ t ++ 0#5 ∧
    assemble (.frameStale p t) = 0b01#2 ++ 0b10#2 ++ p ++ t ++ 0#5 ∧
    assemble (.frameDiag p t) = 0b01#2 ++ 0b11#2 ++ p ++ t ++ 0#5) ∧
  (∀ cw : ControlWord, assemble (.op (.raw cw)) = cw) ∧
  assemble (.op (.decode 0x19#8 0x99#8 0x66#8 0x60#8)) = 0x119996660#34

/-! ### The operations -/

/-- 40_frame_decoder.md R70 (the step, model's reading of the inputs: log 1): where the next control word encodes a well-formed
operation, the step performs it in the state whose word has been sampled; where the host drives nothing, it performs HOLD. -/
def Obligations.StepRunsTheDecodedOperation : Prop :=
  (∀ (s : State) (i : Instr) (rest : List ControlWord), i.wellFormed = true → s.inputs = encode i :: rest →
    step s = exec i { s with inputs := rest, edge := s.edge + 1 }) ∧
  ∀ s : State, s.inputs = [] → step s = exec (.hold 0#32) { s with edge := s.edge + 1 }

/-- The host's two names for a table word agree (logs 9 and 10): a word the table decoder reads runs as the next step, and only
a number wider than a control word is not read. -/
def Obligations.TableWordRunsNext : Prop :=
  (∀ (nbits w : Nat) (i : Instr) (s : State), decodeTableWord nbits w = some i →
    step (s.withFetchWord nbits w) = exec i { s with inputs := s.inputs.tail, edge := s.edge + 1 }) ∧
  ∀ nbits w : Nat, decodeTableWord nbits w = none ↔ 2 ^ 34 ≤ w % 2 ^ nbits

/-- 40_frame_decoder.md R70: the pseudocode of the step, on the bits of the sampled control word. -/
def Obligations.StepFollowsPseudocode : Prop :=
  ∀ (cw : ControlWord) (rest : List ControlWord) (s : State),
    step (drive (cw :: rest) s) =
      .next (
        if cw.getLsbD 33 = true then
          { s with inputs := rest, edge := s.edge + 1, pressureCount := 0#14, temperatureCount := 0#11,
                   status := s.statusReset, statusValid := false }
        else if cw.getLsbD 32 = false then
          { s with inputs := rest, edge := s.edge + 1 }
        else if cw.extractLsb' 30 2 = 0b00#2 then
          { s with inputs := rest, edge := s.edge + 1, status := 0b00#2, statusValid := true,
                   pressureCount := cw.extractLsb' 16 14, temperatureCount := cw.extractLsb' 5 11 }
        else if cw.extractLsb' 30 2 = 0b01#2 then
          { s with inputs := rest, edge := s.edge + 1, status := 0b01#2, statusValid := true }
        else if cw.extractLsb' 30 2 = 0b10#2 then
          { s with inputs := rest, edge := s.edge + 1, status := 0b10#2, statusValid := true }
        else
          { s with inputs := rest, edge := s.edge + 1, status := 0b11#2, statusValid := true })

/-- 40_frame_decoder.md R71: what RESET leaves, whatever stands on `frame_valid` and the frame, and that nothing else changes;
a control word of its row performs it and its frame is lost; repeated, it gives the same state. -/
def Obligations.ResetResult : Prop :=
  (∀ (frameValid : Bool) (frame : Frame) (s : State),
    exec (.reset frameValid frame) s =
      .next { s with pressureCount := 0#14, temperatureCount := 0#11, status := s.statusReset, statusValid := false }) ∧
  (∀ (cw : ControlWord) (rest : List ControlWord) (s : State), cw &&& 0x200000000#34 = 0x200000000#34 →
    step (drive (cw :: rest) s) =
      .next { s with pressureCount := 0#14, temperatureCount := 0#11, status := s.statusReset, statusValid := false,
                     inputs := rest, edge := s.edge + 1 }) ∧
  ∀ (v v' : Bool) (f f' : Frame) (s t : State), exec (.reset v f) s = .next t → exec (.reset v' f') t = .next t

/-- 40_frame_decoder.md R72: HOLD writes no register, whatever stands on the frame port; a control word of its row performs it;
and any number of HOLDs leaves every output unchanged (under a legal calibration: 41_linear_interpolator.md R93 lets `pressure`
change at each cycle otherwise). -/
def Obligations.HoldResult : Prop :=
  (∀ (frame : Frame) (s : State), exec (.hold frame) s = .next s) ∧
  (∀ (cw : ControlWord) (rest : List ControlWord) (s : State), cw &&& 0x300000000#34 = 0x000000000#34 →
    step (drive (cw :: rest) s) = .next { s with inputs := rest, edge := s.edge + 1 }) ∧
  ∀ (words rest : List ControlWord) (s : State), (∀ cw ∈ words, isHoldWord cw = true) → s.calibrationLegal = true →
    ∃ t, run words.length (drive (words ++ rest) s) = .next t ∧ outputs t = outputs s

/-- 40_frame_decoder.md R74: what DECODE.NORMAL writes and that nothing else changes, as an operation and from any control word of
its row. -/
def Obligations.DecodeNormalResult : Prop :=
  (∀ (frame : Frame) (s : State), (Instr.decodeNormal frame).wellFormed = true →
    exec (.decodeNormal frame) s =
      .next { s with status := 0b00#2, statusValid := true, pressureCount := frame.extractLsb' 16 14,
                     temperatureCount := frame.extractLsb' 5 11 }) ∧
  ∀ (cw : ControlWord) (rest : List ControlWord) (s : State), cw &&& 0x3C0000000#34 = 0x100000000#34 →
    step (drive (cw :: rest) s) =
      .next { s with status := 0b00#2, statusValid := true, pressureCount := cw.extractLsb' 16 14,
                     temperatureCount := cw.extractLsb' 5 11, inputs := rest, edge := s.edge + 1 }

/-- 40_frame_decoder.md R75, R76, R77: what DECODE.CMD, DECODE.STALE and DECODE.DIAG write, and that the counts and all else are kept,
as operations and from any control word of their rows. -/
def Obligations.NonNormalDecodeResults : Prop :=
  (∀ (frame : Frame) (s : State), (Instr.decodeCmd frame).wellFormed = true →
    exec (.decodeCmd frame) s = .next { s with status := 0b01#2, statusValid := true }) ∧
  (∀ (frame : Frame) (s : State), (Instr.decodeStale frame).wellFormed = true →
    exec (.decodeStale frame) s = .next { s with status := 0b10#2, statusValid := true }) ∧
  (∀ (frame : Frame) (s : State), (Instr.decodeDiag frame).wellFormed = true →
    exec (.decodeDiag frame) s = .next { s with status := 0b11#2, statusValid := true }) ∧
  ∀ (cw : ControlWord) (rest : List ControlWord) (s : State),
    (cw &&& 0x3C0000000#34 = 0x140000000#34 →
      step (drive (cw :: rest) s) =
        .next { s with status := 0b01#2, statusValid := true, inputs := rest, edge := s.edge + 1 }) ∧
    (cw &&& 0x3C0000000#34 = 0x180000000#34 →
      step (drive (cw :: rest) s) =
        .next { s with status := 0b10#2, statusValid := true, inputs := rest, edge := s.edge + 1 }) ∧
    (cw &&& 0x3C0000000#34 = 0x1C0000000#34 →
      step (drive (cw :: rest) s) =
        .next { s with status := 0b11#2, statusValid := true, inputs := rest, edge := s.edge + 1 })

/-- 40_frame_decoder.md R73, R78: after any DECODE the `status` output is the frame's code, `status_valid` is 1, and the reported
`SensorStatus` is the one the code maps to. -/
def Obligations.EveryDecodeRecordsItsStatus : Prop :=
  ∀ (cw : ControlWord) (rest : List ControlWord) (s : State), isDecodeWord cw = true →
    ∃ t, step (drive (cw :: rest) s) = .next t ∧
      (outputs t).status = cw.extractLsb' 30 2 ∧ (outputs t).statusValid = true ∧
      reportedStatus t = some (statusOfCode (cw.extractLsb' 30 2)) ∧
      ((outputs t).status).toNat = ((frameByte (cw.extractLsb' 0 32) 0).toNat >>> 6) &&& 0b11

/-- 30_encoding.md R60, 20_memory.md R46: two control words that differ only in bits their operation ignores have the same step:
the low five bits of any frame; everything below `rst` for RESET; the frame for HOLD; all but the code for a non-Normal DECODE. -/
def Obligations.IgnoredBitsHaveNoEffect : Prop :=
  ∀ (cw cw' : ControlWord) (rest : List ControlWord) (s : State),
    (cw >>> 5 = cw' >>> 5 ∨
      (isResetWord cw = true ∧ isResetWord cw' = true) ∨
      (isHoldWord cw = true ∧ isHoldWord cw' = true) ∨
      (isDecodeWord cw = true ∧ isDecodeWord cw' = true ∧ cw.extractLsb' 30 2 ≠ 0b00#2 ∧
        cw.extractLsb' 30 2 = cw'.extractLsb' 30 2)) →
    step (drive (cw :: rest) s) = step (drive (cw' :: rest) s)

/-- 10_state.md R21 to R25: which operation a step must have performed if it changed a register. -/
def Obligations.OnlyItsWritersChangeARegister : Prop :=
  ∀ s t : State, step s = .next t →
    (t.status ≠ s.status → isResetWord (sampledWord s) = true ∨ isDecodeWord (sampledWord s) = true) ∧
    (t.statusValid ≠ s.statusValid →
      (isResetWord (sampledWord s) = true ∧ t.statusValid = false) ∨
      (isDecodeWord (sampledWord s) = true ∧ t.statusValid = true)) ∧
    (t.pressureCount ≠ s.pressureCount ∨ t.temperatureCount ≠ s.temperatureCount →
      isResetWord (sampledWord s) = true ∨ isNormalWord (sampledWord s) = true)

/-- 60_exceptions.md R110: no operation faults or is refused, for any state and any control word; the one refusal is a
calibration that is not finite, at launch. -/
def Obligations.NoOperationFaults : Prop :=
  (∀ s : State, ∃ t, step s = .next t) ∧
  (∀ (i : Instr) (s : State), ∃ t, exec i s = .next t) ∧
  (∀ _ : Fault, False) ∧
  ∀ (a b : Binary32) (r : StatusCode) (words : List ControlWord),
    ((∃ why, launch a b r words = .refused why) ↔ val32 a = none ∨ val32 b = none) ∧
    (val32 a = none ∨ val32 b = none → launch a b r words = .refused .nonFiniteCalibration)

/-! ### Reset, power-up and launch -/

/-- 10_state.md R31: the reset state holds the reset values, its `status` is the parameter, and RESET gives exactly those values. -/
def Obligations.ResetStateHoldsResetValues : Prop :=
  State.reset.pressureCount = 0#14 ∧ State.reset.temperatureCount = 0#11 ∧ State.reset.statusValid = false ∧
  State.reset.status = State.reset.statusReset ∧
  ∀ (v : Bool) (f : Frame), exec (.reset v f) State.reset = .next State.reset

/-- 70_reset_and_hazards.md R130: whatever the registers hold before the first RESET leaves no trace after it, under any control
words that follow. -/
def Obligations.ResetErasesThePast : Prop :=
  ∀ (cw : ControlWord) (words : List ControlWord) (s s' : State), isResetWord cw = true →
    s.calMin = s'.calMin → s.calMax = s'.calMax → s.statusReset = s'.statusReset → s.edge = s'.edge →
    ∃ t, run (words.length + 1) (drive (cw :: words) s) = .next t ∧
      run (words.length + 1) (drive (cw :: words) s') = .next t

/-- 70_reset_and_hazards.md R130, R132: a launch with a finite calibration gives the state RESET gives on those parameters, with
the host's words to come. -/
def Obligations.LaunchStartsFromReset : Prop :=
  ∀ (a b : Binary32) (r : StatusCode) (words : List ControlWord) (A B : Rat), val32 a = some A → val32 b = some B →
    ∃ t, launch a b r words = .next t ∧ t.inputs = words ∧ t.calMin = a ∧ t.calMax = b ∧ t.statusReset = r ∧
      t.calibrationLegal = true ∧ exec (.reset false 0#32) t = .next t

/-- 42_readout.md R105: between RESET and the first DECODE the outputs are the reset values. -/
def Obligations.OutputsBeforeFirstDecode : Prop :=
  ∀ (s : State) (A B : Rat), s.quietUntilDecoded → s.statusValid = false → val32 s.calMin = some A →
    val32 s.calMax = some B →
    (outputs s).status = s.statusReset ∧ (outputs s).pressureCount = 0#14 ∧ (outputs s).temperatureCount = 0#11 ∧
    (outputs s).pressure = rne32 (A - (B - A) / 8) ∧ (outputs s).temperature = 0xC2480000#32

/-- The invariant of 42_readout.md R105 holds of the reset state. -/
def Obligations.ResetStateIsQuiet : Prop := State.reset.quietUntilDecoded

/-- The invariant of 42_readout.md R105, `quietUntilDecoded`, is kept by every step from every state that has it, and so by every
run. -/
def Obligations.EveryStepKeepsQuietUntilDecoded : Prop :=
  (∀ s t : State, s.quietUntilDecoded → step s = .next t → t.quietUntilDecoded) ∧
  ∀ (k : Nat) (s t : State), s.quietUntilDecoded → run k s = .next t → t.quietUntilDecoded

/-- 70_reset_and_hazards.md R131: while the host drives nothing, every edge is a HOLD (the model's empty list of inputs: log 1). -/
def Obligations.UndrivenEdgesHold : Prop :=
  ∀ (k : Nat) (s : State), s.inputs = [] → run k s = .next { s with edge := s.edge + k }

/-! ### Whole runs -/

/-- 00_scope.md R18, 10_state.md R23, R24, 40_frame_decoder.md R71, R74 to R77: over any control words from any state, the counts are those
of the last Normal frame; 0 if a RESET came after it; and what they were if neither came. -/
def Obligations.CountsAreOfTheLastNormalFrame : Prop :=
  ∀ (before after : List ControlWord) (s : State),
    (∀ cw ∈ after, isResetWord cw = false ∧ isNormalWord cw = false) →
    (∃ t, run after.length (drive after s) = .next t ∧
      t.pressureCount = s.pressureCount ∧ t.temperatureCount = s.temperatureCount) ∧
    ∀ cw : ControlWord, ∃ t,
      run (before ++ cw :: after).length (drive (before ++ cw :: after) s) = .next t ∧
      (isNormalWord cw = true → t.pressureCount = cw.extractLsb' 16 14 ∧ t.temperatureCount = cw.extractLsb' 5 11) ∧
      (isResetWord cw = true → t.pressureCount = 0#14 ∧ t.temperatureCount = 0#11)

/-- 42_readout.md R101, 10_state.md R21: over any control words from any state, `status` is the code of the last frame decoded, and
STATUS_RESET if a RESET came after it. -/
def Obligations.StatusIsOfTheLastDecodedFrame : Prop :=
  ∀ (before holds : List ControlWord) (cw : ControlWord) (s : State), (∀ w ∈ holds, isHoldWord w = true) →
    ∃ t, run (before ++ cw :: holds).length (drive (before ++ cw :: holds) s) = .next t ∧
      (isDecodeWord cw = true → (outputs t).status = cw.extractLsb' 30 2) ∧
      (isResetWord cw = true → (outputs t).status = s.statusReset)

/-- 42_readout.md R102: `status_valid` is 0 from RESET until the first DECODE, then 1 until the next RESET. -/
def Obligations.StatusValidFromFirstDecodeToReset : Prop :=
  ∀ (before after : List ControlWord) (cw : ControlWord) (s : State),
    ∃ t, run (before ++ cw :: after).length (drive (before ++ cw :: after) s) = .next t ∧
      (isResetWord cw = true → (∀ w ∈ after, isDecodeWord w = false) → (outputs t).statusValid = false) ∧
      (isDecodeWord cw = true → (∀ w ∈ after, isResetWord w = false) → (outputs t).statusValid = true)

/-- 20_memory.md R48: edges come one after another, and no output reflects a later control word. Where the calibration is not finite,
that the two `pressure` outputs agree is no rule's (41_linear_interpolator.md R93 leaves that value open) but the model's choice of
a free value of the edge number (log 4). -/
def Obligations.OperationsAreSequential : Prop :=
  (∀ (m n : Nat) (s t : State), run m s = .next t →
    run (m + n) s = run n t) ∧
  ∀ (words later later' : List ControlWord) (s : State), ∃ t t' : State,
    run words.length (drive (words ++ later) s) = .next t ∧ t.inputs = later ∧
    run words.length (drive (words ++ later') s) = .next t' ∧ t'.inputs = later' ∧
    outputs t = outputs t'

/-- 10_state.md R27, 70_reset_and_hazards.md R132: no run changes the calibration. Nor does one change `statusReset`: 10_state.md R31
lets a model take it as a parameter or a draw, and that it is one value for a whole run is the model's choice (log 3). -/
def Obligations.ParametersNeverChange : Prop :=
  ∀ (k : Nat) (s t : State), run k s = .next t →
    t.calMin = s.calMin ∧ t.calMax = s.calMax ∧ t.statusReset = s.statusReset

/-- 10_state.md R27, 41_linear_interpolator.md R93, R95: the calibration, legal or not, reaches no output but `pressure`, over any run. -/
def Obligations.CalibrationReachesOnlyPressure : Prop :=
  ∀ (k : Nat) (a b : Binary32) (s t : State), run k s = .next t →
    run k { s with calMin := a, calMax := b } = .next { t with calMin := a, calMax := b } ∧
    ∃ p : Binary32, outputs { t with calMin := a, calMax := b } = { outputs t with pressure := p }

/-- 70_reset_and_hazards.md R138: a strobe held with the same frame decodes it at each edge, and after the first of those edges no
register changes. -/
def Obligations.HeldStrobeChangesNothingMore : Prop :=
  ∀ (n : Nat) (cw : ControlWord) (rest : List ControlWord) (s : State), isDecodeWord cw = true →
    ∃ t, step (drive (cw :: rest) s) = .next t ∧
      run (n + 1) (drive (List.replicate (n + 1) cw ++ rest) s) = .next { t with edge := t.edge + n }

/-- 70_reset_and_hazards.md R134: a non-Normal DECODE leaves the counts and both conversions as they were, and after a DECODE
`countsAreFresh` says exactly whether the counts are of the frame just decoded. -/
def Obligations.StaleCountsAreTold : Prop :=
  ∀ (cw : ControlWord) (rest : List ControlWord) (s : State), isDecodeWord cw = true → s.calibrationLegal = true →
    ∃ t, step (drive (cw :: rest) s) = .next t ∧
      (t.countsAreFresh = true ↔ isNormalWord cw = true) ∧
      (t.countsAreFresh = true →
        (outputs t).pressureCount = cw.extractLsb' 16 14 ∧ (outputs t).temperatureCount = cw.extractLsb' 5 11) ∧
      (t.countsAreFresh = false →
        (outputs t).pressureCount = (outputs s).pressureCount ∧
        (outputs t).temperatureCount = (outputs s).temperatureCount ∧
        (outputs t).pressure = (outputs s).pressure ∧ (outputs t).temperature = (outputs s).temperature)

/-! ### The linear_interpolator -/

/-- 00_scope.md R9: the pressure constants, their difference, and that they are 10% and 90% of 2^14. -/
def Obligations.PressureConstants : Prop :=
  minCount = 1638.4 ∧ maxCount = 14745.6 ∧ minCount = 8192 / 5 ∧ maxCount = 73728 / 5 ∧
  maxCount - minCount = 65536 / 5 ∧ minCount = 1 / 10 * 2 ^ 14 ∧ maxCount = 9 / 10 * 2 ^ 14

/-- 41_linear_interpolator.md R86: the two forms of `PFC_exact`. -/
def Obligations.PressureExactForms : Prop :=
  ∀ c A B : Rat,
    pfcExact c A B = (c - 1638.4) * (B - A) / (14745.6 - 1638.4) + A ∧
    pfcExact c A B = (5 * c - 8192) * (B - A) / 65536 + A

/-- 41_linear_interpolator.md R89, R91: the ends of the count range, the calibration points, the four counts next to them; that
the ends lie outside the calibration range (no clamping); and that `PFC` is defined for every count. -/
def Obligations.PressureExactPoints : Prop :=
  ∀ A B : Rat,
    pfcExact 0 A B = A - (B - A) / 8 ∧
    pfcExact 16383 A B = A + 73723 * (B - A) / 65536 ∧
    pfcExact 1638.4 A B = A ∧ pfcExact 14745.6 A B = B ∧
    pfcExact 1638 A B = A - 2 * (B - A) / 65536 ∧
    pfcExact 1639 A B = A + 3 * (B - A) / 65536 ∧
    pfcExact 14745 A B = B - 3 * (B - A) / 65536 ∧
    pfcExact 14746 A B = B + 2 * (B - A) / 65536 ∧
    (A < B → pfcExact 0 A B < A ∧ B < pfcExact 16383 A B) ∧
    (B < A → A < pfcExact 0 A B ∧ pfcExact 16383 A B < B) ∧
    ∀ (c : PressureCount) (a b : Binary32), val32 a = some A → val32 b = some B →
      pfc c a b = some (rne32 (pfcExact c.toNat A B))

/-- 41_linear_interpolator.md R87, R88: with a finite calibration the `pressure` output is one rounding of the exact value for the held
count, for every count. -/
def Obligations.PressureOutput : Prop :=
  ∀ (s : State) (A B : Rat), val32 s.calMin = some A → val32 s.calMax = some B →
    (outputs s).pressure = rne32 ((5 * (s.pressureCount.toNat : Rat) - 8192) * (B - A) / 65536 + A) ∧
    pfc s.pressureCount s.calMin s.calMax = some (outputs s).pressure

/-- 41_linear_interpolator.md R90: a decreasing exact function on an inverted range, a constant one on a flat range, and there the word
`cal_min` itself for a non-zero value and `+0.0` for either zero. -/
def Obligations.InvertedAndFlatRanges : Prop :=
  (∀ c d A B : Rat, B < A → c < d → pfcExact d A B < pfcExact c A B) ∧
  (∀ c A : Rat, pfcExact c A A = A) ∧
  ∀ (c : PressureCount) (a b : Binary32) (A : Rat), val32 a = some A → val32 b = some A →
    (A ≠ 0 → pfc c a b = some a) ∧ (A = 0 → pfc c a b = some 0x00000000#32)

/-- 41_linear_interpolator.md R90: `PFC` is monotone in the count: non-decreasing when `B >= A`, non-increasing when `B <= A`, infinities
included. -/
def Obligations.PressureIsMonotoneInTheCount : Prop :=
  ∀ (a b : Binary32) (A B : Rat) (c d : PressureCount), val32 a = some A → val32 b = some B → c.toNat ≤ d.toNat →
    ∃ w x : Binary32, pfc c a b = some w ∧ pfc d a b = some x ∧
      (A ≤ B → orderPlace w ≤ orderPlace x) ∧ (B ≤ A → orderPlace x ≤ orderPlace w)

/-- 41_linear_interpolator.md R92, 00_scope.md R15: the result is an infinity exactly where the exact value rounds to 2^128 or beyond, of
the sign of the exact value; and never where `|A| + 1.125 |B - A| < 3.4e38`. That rounding reaches 2^128 from the midpoint
2^128 - 2^103 on, the tie going up, is IEEE 754's rule, which the spec presumes and does not spell out (log 7). -/
def Obligations.PressureOverflow : Prop :=
  ∀ (c : PressureCount) (a b : Binary32) (A B : Rat), val32 a = some A → val32 b = some B →
    ∃ w : Binary32, pfc c a b = some w ∧
      (2 ^ 128 - 2 ^ 103 ≤ pfcExact c.toNat A B → w = 0x7F800000#32) ∧
      (pfcExact c.toNat A B ≤ -(2 ^ 128 - 2 ^ 103) → w = 0xFF800000#32) ∧
      (|pfcExact c.toNat A B| < 2 ^ 128 - 2 ^ 103 → isFinite w = true) ∧
      (calibrationBounded A B → isFinite w = true)

/-- 41_linear_interpolator.md R93: with a calibration word that has no value, `pressure` is the free value of the edge (log 4), and the
launch is refused. -/
def Obligations.NonFiniteCalibrationLeavesPressureOpen : Prop :=
  ∀ (s : State) (words : List ControlWord), val32 s.calMin = none ∨ val32 s.calMax = none →
    (outputs s).pressure = Config.unspecifiedPressure s.edge ∧
    launch s.calMin s.calMax s.statusReset words = .refused .nonFiniteCalibration

/-- 41_linear_interpolator.md R94: the two forms of `TFC_exact`. -/
def Obligations.TemperatureExactForms : Prop :=
  ∀ c : Rat, tfcExact c = c / 2047 * 200 - 50 ∧ tfcExact c = 200 * c / 2047 - 50

/-- 41_linear_interpolator.md R95: the `temperature` output is one rounding of the exact value for the held count. -/
def Obligations.TemperatureOutput : Prop :=
  ∀ s : State, (outputs s).temperature = rne32 (200 * (s.temperatureCount.toNat : Rat) / 2047 - 50)

/-- 41_linear_interpolator.md R96: the end points, exactly. -/
def Obligations.TemperatureEndPoints : Prop :=
  tfc 0#11 = 0xC2480000#32 ∧ val32 0xC2480000#32 = some (-50) ∧
  tfc 2047#11 = 0x43160000#32 ∧ val32 0x43160000#32 = some 150

/-- 41_linear_interpolator.md R97: strictly increasing from -50 to 150, never 0, nearest zero at 511 and 512, and every result a finite,
normal, non-zero word. -/
def Obligations.TemperatureRange : Prop :=
  (∀ c d : Rat, c < d → tfcExact c < tfcExact d) ∧ tfcExact 0 = -50 ∧ tfcExact 2047 = 150 ∧
  tfcExact 511 = -150 / 2047 ∧ tfcExact 512 = 50 / 2047 ∧
  (∀ c : Nat, tfcExact c ≠ 0 ∧ (|tfcExact 512| ≤ |tfcExact c|) ∧ (tfcExact c < 0 → tfcExact c ≤ tfcExact 511)) ∧
  ∀ c : TemperatureCount, isFinite (tfc c) = true ∧ exponentField (tfc c) ≠ 0#8 ∧ ∃ v, val32 (tfc c) = some v ∧ v ≠ 0

/-- 41_linear_interpolator.md R85, R98: the conversions read the held counts and the calibration and nothing else, where the
calibration is legal. -/
def Obligations.ConversionsArePure : Prop :=
  ∀ s t : State, s.pressureCount = t.pressureCount → s.temperatureCount = t.temperatureCount →
    s.calMin = t.calMin → s.calMax = t.calMax → s.calibrationLegal = true →
    (outputs s).pressure = (outputs t).pressure ∧ (outputs s).temperature = (outputs t).temperature

/-! ### binary32 -/

/-- 00_scope.md R15: the value of a word is that of IEEE 754 binary32, sign, exponent with bias 127, 23 fraction bits, subnormals
included; an infinity or a NaN has none. -/
def Obligations.WordValueIsBinary32 : Prop :=
  ∀ w : Binary32,
    (exponentField w = 0xFF#8 → val32 w = none) ∧
    (exponentField w = 0#8 →
      val32 w = some ((-1) ^ (signBit w).toNat * ((fractionField w).toNat / 2 ^ 23) * (2 : Rat) ^ (-126 : Int))) ∧
    (exponentField w ≠ 0#8 → exponentField w ≠ 0xFF#8 →
      val32 w = some ((-1) ^ (signBit w).toNat * (1 + (fractionField w).toNat / 2 ^ 23) *
        (2 : Rat) ^ ((exponentField w).toNat - 127 : Int)))

/-- 00_scope.md R15: `rne32` is round-to-nearest, ties-to-even, for every rational: no finite word is nearer, and of two equally near
values the chosen word is even; a magnitude of 2^128 - 2^103 or more (the midpoint between the largest finite value and 2^128)
is the infinity of its sign; 0 gives `+0.0`. The sign of a negative value that rounds to zero is the model's reading (log 6). -/
def Obligations.RoundingIsNearestTiesToEven : Prop :=
  rne32 0 = 0x00000000#32 ∧
  ∀ q : Rat,
    signBit (rne32 q) = decide (q < 0) ∧
    (2 ^ 128 - 2 ^ 103 ≤ q → rne32 q = 0x7F800000#32) ∧
    (q ≤ -(2 ^ 128 - 2 ^ 103) → rne32 q = 0xFF800000#32) ∧
    (|q| < 2 ^ 128 - 2 ^ 103 → ∃ v, val32 (rne32 q) = some v ∧
      ∀ (w : Binary32) (u : Rat), val32 w = some u →
        |v - q| < |u - q| ∨ (|v - q| = |u - q| ∧ (u = v ∨ (rne32 q).getLsbD 0 = false)))

/-- 00_scope.md R15, 41_linear_interpolator.md R87: a value that is a binary32 number is returned unchanged, subnormals included, and
either zero as `+0.0`. -/
def Obligations.RoundingReturnsItsOwnNumbers : Prop :=
  ∀ (w : Binary32) (v : Rat), val32 w = some v →
    (v ≠ 0 → rne32 v = w) ∧ (v = 0 → rne32 v = 0x00000000#32)
end

