-- ==== Sys2Proof/Laws/Binary32.lean ====
section
/-! SUPPORT. What the rounding operations of 00_scope.md R15 do: half-even rounding of a quotient, the magnitude a word stands for,
and that `magnitudeWord` chooses the nearest. -/

namespace Sys2Proof.Machine

/-- `roundHalfEven n d` is within half of `d`, and even where it is exactly half away. -/
theorem roundHalfEven_spec (n d : Nat) (hd : 0 < d) :
    2 * (roundHalfEven n d * d) ≤ 2 * n + d ∧ 2 * n ≤ 2 * (roundHalfEven n d * d) + d ∧
    (2 * (roundHalfEven n d * d) = 2 * n + d ∨ 2 * n = 2 * (roundHalfEven n d * d) + d → roundHalfEven n d % 2 = 0) := by
  have hn := Nat.div_add_mod n d
  have hr := Nat.mod_lt n hd
  rw [Nat.mul_comm] at hn
  simp only [roundHalfEven]
  generalize n / d = k at *
  generalize n % d = r at *
  subst hn
  split
  · omega
  · split
    · rw [Nat.add_mul]; omega
    · rcases Nat.mod_two_eq_zero_or_one k with hk | hk
      · rw [hk]; simp; omega
      · rw [hk, Nat.add_mul]; omega

/-- The magnitude, in units of 2^-149, of the word whose low 31 bits are `b`, were the exponent unbounded. -/
def unitsAt (b : Nat) : Nat :=
  if b / 2 ^ 23 = 0 then b % 2 ^ 23 else (2 ^ 23 + b % 2 ^ 23) * 2 ^ (b / 2 ^ 23 - 1)

/-- A significand `m` of a quantum `2^s`, normal or of the lowest binades, also where it carries to 2^24. -/
theorem unitsAt_significand (s m : Nat) (hm : m ≤ 2 ^ 24) (h : s = 0 ∨ 2 ^ 23 ≤ m) :
    unitsAt (s * 2 ^ 23 + m) = m * 2 ^ s := by
  rcases Nat.lt_or_ge m (2 ^ 23) with hlt | hge
  · obtain rfl : s = 0 := by omega
    have h1 : (0 * 2 ^ 23 + m) / 2 ^ 23 = 0 := by omega
    simp only [unitsAt, h1]
    rw [if_pos True.intro]
    omega
  · rcases Nat.lt_or_ge m (2 ^ 24) with h24 | h24
    · have h1 : (s * 2 ^ 23 + m) / 2 ^ 23 = s + 1 := by omega
      have h2 : (s * 2 ^ 23 + m) % 2 ^ 23 = m - 2 ^ 23 := by omega
      simp only [unitsAt, h1, h2]
      rw [if_neg (by omega), Nat.add_sub_cancel, Nat.add_sub_cancel' hge]
    · obtain rfl : m = 2 ^ 24 := by omega
      have h1 : (s * 2 ^ 23 + 2 ^ 24) / 2 ^ 23 = s + 2 := by omega
      have h2 : (s * 2 ^ 23 + 2 ^ 24) % 2 ^ 23 = 0 := by omega
      simp only [unitsAt, h1, h2]
      rw [if_neg (by omega)]
      show (2 ^ 23 + 0) * 2 ^ (s + 1) = 2 ^ 24 * 2 ^ s
      rw [Nat.pow_succ]
      ring

theorem unitsAt_lt_succ (b : Nat) : unitsAt b < unitsAt (b + 1) := by
  rcases Nat.lt_or_ge b (2 ^ 23) with h | h
  · have h0 := unitsAt_significand 0 b (by omega) (.inl rfl)
    have h1 := unitsAt_significand 0 (b + 1) (by omega) (.inl rfl)
    simp only [Nat.zero_mul, Nat.zero_add, Nat.pow_zero, Nat.mul_one] at h0 h1
    omega
  · obtain ⟨s, m, rfl, hm, hm'⟩ : ∃ s m, b = s * 2 ^ 23 + m ∧ 2 ^ 23 ≤ m ∧ m < 2 ^ 24 :=
      ⟨b / 2 ^ 23 - 1, b % 2 ^ 23 + 2 ^ 23, by omega, by omega, by omega⟩
    rw [unitsAt_significand s m (by omega) (.inr hm), Nat.add_assoc, unitsAt_significand s (m + 1) (by omega) (.inr (by omega))]
    exact Nat.mul_lt_mul_of_pos_right (Nat.lt_succ_self m) (Nat.two_pow_pos s)

theorem unitsAt_strictMono : StrictMono unitsAt := strictMono_nat_of_lt_succ unitsAt_lt_succ

/-- The quantum and the significand `magnitudeWord` chooses for `n / d` units, and what they are worth. -/
theorem magnitudeWord_parts (n d : Nat) (hd : 0 < d) :
    ∃ s m : Nat, magnitudeWord n d = s * 2 ^ 23 + m ∧ unitsAt (magnitudeWord n d) = m * 2 ^ s ∧ m ≤ 2 ^ 24 ∧
      (s = 0 ∨ 2 ^ 23 ≤ m ∧ 2 ^ 23 * 2 ^ s * d ≤ n) ∧
      2 * (m * (d * 2 ^ s)) ≤ 2 * n + d * 2 ^ s ∧ 2 * n ≤ 2 * (m * (d * 2 ^ s)) + d * 2 ^ s ∧
      (2 * (m * (d * 2 ^ s)) = 2 * n + d * 2 ^ s ∨ 2 * n = 2 * (m * (d * 2 ^ s)) + d * 2 ^ s → m % 2 = 0) := by
  obtain ⟨s, hs⟩ : ∃ s, s = Nat.log2 (n / d) - 23 := ⟨_, rfl⟩
  have hD : 0 < d * 2 ^ s := Nat.mul_pos hd (Nat.two_pow_pos s)
  obtain ⟨h1, h2, h3⟩ := roundHalfEven_spec n (d * 2 ^ s) hD
  have hword : magnitudeWord n d = s * 2 ^ 23 + roundHalfEven n (d * 2 ^ s) := by simp [magnitudeWord, hs]
  generalize roundHalfEven n (d * 2 ^ s) = m at *
  have hlt : n < 2 ^ 24 * (d * 2 ^ s) := by
    have : n / d < 2 ^ (s + 24) := by
      rcases Nat.eq_zero_or_pos (n / d) with h0 | h0
      · rw [h0]; exact Nat.two_pow_pos _
      · exact Nat.lt_of_lt_of_le Nat.lt_log2_self (Nat.pow_le_pow_right (by decide) (by omega))
    rw [Nat.div_lt_iff_lt_mul hd, Nat.pow_add] at this
    calc n < 2 ^ s * 2 ^ 24 * d := this
      _ = 2 ^ 24 * (d * 2 ^ s) := by ring
  have hm : m ≤ 2 ^ 24 := by
    by_contra hc
    have : (2 ^ 24 + 1) * (d * 2 ^ s) ≤ m * (d * 2 ^ s) := Nat.mul_le_mul_right _ (by omega)
    rw [Nat.add_mul] at this
    omega
  have hlow : s = 0 ∨ 2 ^ 23 ≤ m ∧ 2 ^ 23 * 2 ^ s * d ≤ n := by
    rcases Nat.eq_zero_or_pos s with h0 | h0
    · exact .inl h0
    · right
      have hne : n / d ≠ 0 := by
        intro h; rw [h] at hs; simp at hs; omega
      have hge : 2 ^ 23 * 2 ^ s * d ≤ n := by
        have := Nat.log2_self_le hne
        rw [show Nat.log2 (n / d) = 23 + s by omega, Nat.le_div_iff_mul_le hd, Nat.pow_add] at this
        exact this
      refine ⟨?_, hge⟩
      by_contra hc
      have : (m + 1) * (d * 2 ^ s) ≤ 2 ^ 23 * (d * 2 ^ s) := Nat.mul_le_mul_right _ (by omega)
      rw [Nat.add_mul] at this
      have h4 : 2 ^ 23 * 2 ^ s * d = 2 ^ 23 * (d * 2 ^ s) := by ring
      omega
  exact ⟨s, m, hword, by rw [hword]; exact unitsAt_significand s m hm (hlow.imp id And.left), hm, hlow, h1, h2, h3⟩

/-- Everything `magnitudeWord` promises: no word's magnitude is nearer to `n / d` units, and of two equally near magnitudes the chosen
word is even. -/
theorem magnitudeWord_nearest (n d : Nat) (hd : 0 < d) (b : Nat) :
    |(unitsAt (magnitudeWord n d) : Rat) - n / d| < |(unitsAt b : Rat) - n / d| ∨
    (|(unitsAt (magnitudeWord n d) : Rat) - n / d| = |(unitsAt b : Rat) - n / d| ∧
      (b = magnitudeWord n d ∨ magnitudeWord n d % 2 = 0)) := by
  obtain ⟨s, m, hw, hu, hm, hlow, h1, h2, h3⟩ := magnitudeWord_parts n d hd
  have hdq : (0 : Rat) < d := by exact_mod_cast hd
  have hpos : (0 : Rat) < 2 ^ s := by positivity
  obtain ⟨x, hx⟩ : ∃ x : Rat, x = n / d := ⟨_, rfl⟩
  have hxn : (n : Rat) = x * d := by rw [hx]; field_simp
  have q1 : 2 * (m * 2 ^ s : Rat) ≤ 2 * x + 2 ^ s := by
    have : (2 * (m * (d * 2 ^ s)) : Rat) ≤ 2 * n + d * 2 ^ s := by exact_mod_cast h1
    rw [hxn] at this
    nlinarith [mul_le_mul_of_nonneg_left this hdq.le]
  have q2 : 2 * x ≤ 2 * (m * 2 ^ s : Rat) + 2 ^ s := by
    have : (2 * n : Rat) ≤ 2 * (m * (d * 2 ^ s)) + d * 2 ^ s := by exact_mod_cast h2
    rw [hxn] at this
    nlinarith [mul_le_mul_of_nonneg_left this hdq.le]
  have q3 : 2 * (m * 2 ^ s : Rat) = 2 * x + 2 ^ s ∨ 2 * x = 2 * (m * 2 ^ s : Rat) + 2 ^ s → m % 2 = 0 := by
    rintro (h | h)
    · refine h3 (.inl ?_)
      have : (2 * (m * (d * 2 ^ s)) : Rat) = 2 * n + d * 2 ^ s := by rw [hxn]; linear_combination d * h
      exact_mod_cast this
    · refine h3 (.inr ?_)
      have : (2 * n : Rat) = 2 * (m * (d * 2 ^ s)) + d * 2 ^ s := by rw [hxn]; linear_combination d * h
      exact_mod_cast this
  have hpar : m % 2 = 0 → magnitudeWord n d % 2 = 0 := by omega
  rw [← hx, hu]
  push_cast
  rcases Nat.lt_trichotomy b (magnitudeWord n d) with hb | rfl | hb
  · -- a smaller word
    have hub : unitsAt b < m * 2 ^ s := hu ▸ unitsAt_strictMono hb
    have hubq : (unitsAt b : Rat) < m * 2 ^ s := by exact_mod_cast hub
    rcases le_or_gt (m * 2 ^ s : Rat) x with hle | hgt
    · left
      rw [abs_of_nonpos (by linarith), abs_of_nonpos (by linarith)]
      linarith
    · have hstep : unitsAt b + 2 ^ s ≤ m * 2 ^ s := by
        have hm1 : s = 0 ∨ 2 ^ 23 < m := by
          rcases hlow with h | ⟨h, hn⟩
          · exact .inl h
          · right
            rcases Nat.lt_or_eq_of_le h with h | h
            · exact h
            · exfalso
              have : (2 ^ 23 * 2 ^ s * d : Rat) ≤ n := by exact_mod_cast hn
              rw [hxn] at this
              have := le_of_mul_le_mul_right this hdq
              rw [← h] at hgt
              push_cast at hgt
              linarith
        have hm0 : 0 < m := by
          rcases Nat.eq_zero_or_pos m with h | h
          · rw [h] at hub; simp at hub
          · exact h
        have hle : unitsAt b ≤ (m - 1) * 2 ^ s := by
          rw [← unitsAt_significand s (m - 1) (by omega) (by omega)]
          exact unitsAt_strictMono.monotone (by omega)
        have : (m - 1) * 2 ^ s + 2 ^ s = m * 2 ^ s := by
          rw [← Nat.succ_mul]; congr 1; omega
        omega
      have hstepq : (unitsAt b : Rat) + 2 ^ s ≤ m * 2 ^ s := by exact_mod_cast hstep
      rw [abs_of_pos (by linarith), abs_of_nonpos (by linarith)]
      rcases lt_or_eq_of_le (show (m * 2 ^ s : Rat) - x ≤ -((unitsAt b : Rat) - x) by linarith) with h | h
      · exact .inl h
      · exact .inr ⟨h, .inr (hpar (q3 (.inl (by linarith))))⟩
  · right
    rw [hu]; push_cast
    exact ⟨rfl, .inl rfl⟩
  · -- a larger word
    have hub : m * 2 ^ s < unitsAt b := hu ▸ unitsAt_strictMono hb
    have hubq : (m * 2 ^ s : Rat) < unitsAt b := by exact_mod_cast hub
    rcases le_or_gt x (m * 2 ^ s : Rat) with hle | hgt
    · left
      rw [abs_of_nonneg (by linarith), abs_of_nonneg (by linarith)]
      linarith
    · have hstep : m * 2 ^ s + 2 ^ s ≤ unitsAt b := by
        have hle : (m + 1) * 2 ^ s ≤ unitsAt b := by
          rcases Nat.lt_or_ge m (2 ^ 24) with h | h
          · rw [← unitsAt_significand s (m + 1) (by omega) (by omega)]
            exact unitsAt_strictMono.monotone (by omega)
          · obtain rfl : m = 2 ^ 24 := by omega
            have : unitsAt ((s + 1) * 2 ^ 23 + (2 ^ 23 + 1)) ≤ unitsAt b := unitsAt_strictMono.monotone (by omega)
            rw [unitsAt_significand (s + 1) (2 ^ 23 + 1) (by omega) (.inr (by omega)), Nat.pow_succ] at this
            have h2 := Nat.two_pow_pos s
            omega
        rw [Nat.succ_mul] at hle
        exact hle
      have hstepq : (m * 2 ^ s : Rat) + 2 ^ s ≤ unitsAt b := by exact_mod_cast hstep
      rw [abs_of_neg (by linarith), abs_of_pos (by linarith)]
      rcases lt_or_eq_of_le (show -((m * 2 ^ s : Rat) - x) ≤ (unitsAt b : Rat) - x by linarith) with h | h
      · exact .inl h
      · exact .inr ⟨h, .inr (hpar (q3 (.inr (by linarith))))⟩

/-! ### The words -/

theorem fractionField_toNat (w : Binary32) : (fractionField w).toNat = w.toNat % 2 ^ 31 % 2 ^ 23 := by
  simp [fractionField, BitVec.extractLsb'_toNat]

theorem exponentField_toNat (w : Binary32) : (exponentField w).toNat = w.toNat % 2 ^ 31 / 2 ^ 23 := by
  have := w.isLt
  simp [exponentField, BitVec.extractLsb'_toNat, Nat.shiftRight_eq_div_pow]
  omega

/-- A finite word's magnitude, by its low 31 bits. -/
theorem magnitudeUnits_eq_unitsAt (w : Binary32) : magnitudeUnits w = unitsAt (w.toNat % 2 ^ 31) := by
  have h : exponentField w = 0#8 ↔ w.toNat % 2 ^ 31 / 2 ^ 23 = 0 := by
    rw [← exponentField_toNat, ← BitVec.toNat_inj]
    rfl
  simp only [magnitudeUnits, unitsAt, h, exponentField_toNat, fractionField_toNat]

theorem isFinite_iff (w : Binary32) : isFinite w = true ↔ w.toNat % 2 ^ 31 < 0x7F800000 := by
  rw [isFinite, bne_iff_ne, ne_eq, ← BitVec.toNat_inj, exponentField_toNat]
  have : w.toNat % 2 ^ 31 < 2 ^ 31 := Nat.mod_lt _ (by decide)
  simp only [BitVec.toNat_ofNat]
  omega

/-- A word is its sign and its low 31 bits. -/
theorem toNat_sign_append (negative : Bool) (m : Nat) (hm : m < 2 ^ 31) :
    (BitVec.ofBool negative ++ BitVec.ofNat 31 m : Binary32).toNat = (if negative then 2 ^ 31 else 0) + m := by
  rw [show (BitVec.ofBool negative ++ BitVec.ofNat 31 m : Binary32).toNat = _ from BitVec.toNat_append .., BitVec.toNat_ofNat,
    Nat.mod_eq_of_lt hm, ← Nat.shiftLeft_add_eq_or_of_lt hm, Nat.shiftLeft_eq]
  cases negative <;> simp

theorem rne32_toNat (q : Rat) :
    (rne32 q).toNat = (if q < 0 then 2 ^ 31 else 0) + min (magnitudeWord (q.num.natAbs * 2 ^ 149) q.den) 0x7F800000 := by
  rw [rne32, toNat_sign_append _ _ (by omega)]
  simp

theorem rne32_sign (q : Rat) : signBit (rne32 q) = decide (q < 0) := by
  rw [signBit, rne32, BitVec.getLsbD_append]
  simp

theorem rne32_magnitude (q : Rat) :
    (rne32 q).toNat % 2 ^ 31 = min (magnitudeWord (q.num.natAbs * 2 ^ 149) q.den) 0x7F800000 := by
  rw [rne32_toNat]
  split <;> omega

end Sys2Proof.Machine
end

