-- ==== Sys2Proof/Laws/Decode.lean ====
section
/-! SUPPORT. What the parts of a control word are, and what the decoder can answer. -/

namespace Sys2Proof

theorem rstBit_controlWord (rst frameValid : Bool) (frame : Frame) : rstBit (controlWord rst frameValid frame) = rst := by
  simp only [rstBit, controlWord, BitVec.getLsbD_append]
  simp

theorem frameValidBit_controlWord (rst frameValid : Bool) (frame : Frame) :
    frameValidBit (controlWord rst frameValid frame) = frameValid := by
  simp only [frameValidBit, controlWord, BitVec.getLsbD_append]
  simp

theorem framePort_controlWord (rst frameValid : Bool) (frame : Frame) :
    framePort (controlWord rst frameValid frame) = frame := by
  apply BitVec.eq_of_getLsbD_eq
  intro i hi
  simp only [framePort, controlWord, BitVec.getLsbD_extractLsb', BitVec.getLsbD_append]
  simp [hi]

/-- A control word is no more than its three parts. -/
theorem controlWord_parts (cw : ControlWord) : controlWord (rstBit cw) (frameValidBit cw) (framePort cw) = cw := by
  apply BitVec.eq_of_getLsbD_eq
  intro i hi
  simp only [controlWord, rstBit, frameValidBit, framePort, BitVec.getLsbD_append, BitVec.getLsbD_extractLsb',
    BitVec.getLsbD_ofBool]
  rcases Nat.lt_or_ge i 32 with h | h
  · simp [h]
  · obtain rfl | rfl : i = 32 ∨ i = 33 := by omega
    all_goals simp

/-- The four DECODE forms, by the frame's status code. -/
theorem decodeFrame_cases (frame : Frame) :
    (Machine.statusField frame = 0b00#2 ∧ decodeFrame frame = .decodeNormal frame) ∨
    (Machine.statusField frame = 0b01#2 ∧ decodeFrame frame = .decodeCmd frame) ∨
    (Machine.statusField frame = 0b10#2 ∧ decodeFrame frame = .decodeStale frame) ∨
    (Machine.statusField frame = 0b11#2 ∧ decodeFrame frame = .decodeDiag frame) := by
  have h : ∀ c : StatusCode, c = 0b00#2 ∨ c = 0b01#2 ∨ c = 0b10#2 ∨ c = 0b11#2 := by decide
  rcases h (Machine.statusField frame) with h | h | h | h <;>
    simp [decodeFrame, Machine.statusOfCode, h]

theorem decode_controlWord (rst frameValid : Bool) (frame : Frame) :
    decode (controlWord rst frameValid frame) =
      if rst then .reset frameValid frame else if frameValid then decodeFrame frame else .hold frame := by
  simp only [decode, rstBit_controlWord, frameValidBit_controlWord, framePort_controlWord]

/-! ### The rows of the table, by the bits they ask for -/

theorem statusField_framePort (cw : ControlWord) : Machine.statusField (framePort cw) = cw.extractLsb' 30 2 := by
  apply BitVec.eq_of_getLsbD_eq
  intro i hi
  simp only [Machine.statusField, framePort, BitVec.getLsbD_extractLsb']
  simp [hi]
  omega

theorem selects_reset (v : Bool) (f : Frame) (cw : ControlWord) : (opcodeRow (.reset v f)).selects cw = rstBit cw := by
  simp only [opcodeRow, OpcodeRow.selects]
  rw [Bool.eq_iff_iff, beq_iff_eq, rstBit]
  constructor
  · intro h
    simpa using congrArg (BitVec.getLsbD · 33) h
  · intro h
    apply BitVec.eq_of_getLsbD_eq
    intro i hi
    interval_cases i <;> simp_all

theorem selects_hold (f : Frame) (cw : ControlWord) :
    (opcodeRow (.hold f)).selects cw = (!rstBit cw && !frameValidBit cw) := by
  simp only [opcodeRow, OpcodeRow.selects]
  rw [Bool.eq_iff_iff, beq_iff_eq, rstBit, frameValidBit]
  constructor
  · intro h
    have h33 := congrArg (BitVec.getLsbD · 33) h
    have h32 := congrArg (BitVec.getLsbD · 32) h
    simp at h33 h32
    simp [h33, h32]
  · intro h
    apply BitVec.eq_of_getLsbD_eq
    intro i hi
    interval_cases i <;> simp_all

/-- The mask of the four DECODE rows picks `rst`, `frame_valid` and the status code. -/
theorem decodeMask_iff (c : StatusCode) (cw : ControlWord) :
    cw &&& 0x3C0000000#34 = 0b01#2 ++ c ++ 0#30 ↔
      rstBit cw = false ∧ frameValidBit cw = true ∧ Machine.statusField (framePort cw) = c := by
  rw [statusField_framePort]
  have codes : ∀ c : StatusCode, c = 0#2 ∨ c = 1#2 ∨ c = 2#2 ∨ c = 3#2 := by decide
  constructor
  · intro h
    have h33 := congrArg (BitVec.getLsbD · 33) h
    have h32 := congrArg (BitVec.getLsbD · 32) h
    have h31 := congrArg (BitVec.getLsbD · 31) h
    have h30 := congrArg (BitVec.getLsbD · 30) h
    rcases codes c with rfl | rfl | rfl | rfl <;> simp at h30 h31 h32 h33 <;>
      refine ⟨by simpa [rstBit] using h33, by simpa [frameValidBit] using h32, ?_⟩ <;>
      (apply BitVec.eq_of_getLsbD_eq; intro i hi; interval_cases i <;> simp [h30, h31])
  · rintro ⟨h33, h32, h⟩
    have h31 := congrArg (BitVec.getLsbD · 1) h
    have h30 := congrArg (BitVec.getLsbD · 0) h
    rcases codes c with rfl | rfl | rfl | rfl <;> simp [rstBit, frameValidBit] at h30 h31 h32 h33 <;>
      (apply BitVec.eq_of_getLsbD_eq; intro i hi; interval_cases i <;> simp [h30, h31, h32, h33])

theorem selects_decode (c : StatusCode) (row : OpcodeRow) (hmask : row.mask = 0x3C0000000#34)
    (hpattern : row.pattern = 0b01#2 ++ c ++ 0#30) (cw : ControlWord) :
    row.selects cw = (!rstBit cw && frameValidBit cw && Machine.statusField (framePort cw) == c) := by
  rw [OpcodeRow.selects, hmask, hpattern, Bool.eq_iff_iff, beq_iff_eq, decodeMask_iff]
  simp [and_assoc]

end Sys2Proof
end

