-- ==== Sys2Proof/Laws/PerInstr.lean ====
section
/-! SUPPORT. Families of statements about every operation as syntax, one lemma for each constructor. -/

namespace Sys2Proof.Laws

/-- The control word of a well-formed operation is selected by the operation's own row of 30_encoding.md R61. -/
def MatchesRow.Statement (i : Instr) : Prop := i.wellFormed = true → (opcodeRow i).selects (encode i) = true

theorem MatchesRow.reset (frameValid : Bool) (frame : Frame) : MatchesRow.Statement (.reset frameValid frame) := by
  intro _
  rw [selects_reset, encode, rstBit_controlWord]

theorem MatchesRow.hold (frame : Frame) : MatchesRow.Statement (.hold frame) := by
  intro _
  rw [selects_hold, encode, rstBit_controlWord, frameValidBit_controlWord]
  rfl

theorem MatchesRow.decodeNormal (frame : Frame) : MatchesRow.Statement (.decodeNormal frame) := by
  intro h
  rw [selects_decode 0b00#2 _ rfl rfl, encode, rstBit_controlWord, frameValidBit_controlWord, framePort_controlWord]
  exact h

theorem MatchesRow.decodeCmd (frame : Frame) : MatchesRow.Statement (.decodeCmd frame) := by
  intro h
  rw [selects_decode 0b01#2 _ rfl rfl, encode, rstBit_controlWord, frameValidBit_controlWord, framePort_controlWord]
  exact h

theorem MatchesRow.decodeStale (frame : Frame) : MatchesRow.Statement (.decodeStale frame) := by
  intro h
  rw [selects_decode 0b10#2 _ rfl rfl, encode, rstBit_controlWord, frameValidBit_controlWord, framePort_controlWord]
  exact h

theorem MatchesRow.decodeDiag (frame : Frame) : MatchesRow.Statement (.decodeDiag frame) := by
  intro h
  rw [selects_decode 0b11#2 _ rfl rfl, encode, rstBit_controlWord, frameValidBit_controlWord, framePort_controlWord]
  exact h

end Sys2Proof.Laws
end

