-- ==== Sys2Proof/Laws/State.lean ====
section
/-! SUPPORT. One lemma for each field and each named update of State, so that no later proof unfolds a record update. -/

namespace Sys2Proof.Machine

@[simp] theorem recordStatus_status (frame : Frame) (s : State) : (recordStatus frame s).status = statusField frame := rfl
@[simp] theorem recordStatus_statusValid (frame : Frame) (s : State) : (recordStatus frame s).statusValid = true := rfl
@[simp] theorem recordStatus_pressureCount (frame : Frame) (s : State) : (recordStatus frame s).pressureCount = s.pressureCount := rfl
@[simp] theorem recordStatus_temperatureCount (frame : Frame) (s : State) : (recordStatus frame s).temperatureCount = s.temperatureCount := rfl
@[simp] theorem recordStatus_calMin (frame : Frame) (s : State) : (recordStatus frame s).calMin = s.calMin := rfl
@[simp] theorem recordStatus_calMax (frame : Frame) (s : State) : (recordStatus frame s).calMax = s.calMax := rfl
@[simp] theorem recordStatus_statusReset (frame : Frame) (s : State) : (recordStatus frame s).statusReset = s.statusReset := rfl
@[simp] theorem recordStatus_inputs (frame : Frame) (s : State) : (recordStatus frame s).inputs = s.inputs := rfl
@[simp] theorem recordStatus_edge (frame : Frame) (s : State) : (recordStatus frame s).edge = s.edge := rfl

@[simp] theorem clearStatus_status (s : State) : (clearStatus s).status = s.statusReset := rfl
@[simp] theorem clearStatus_statusValid (s : State) : (clearStatus s).statusValid = false := rfl
@[simp] theorem clearStatus_pressureCount (s : State) : (clearStatus s).pressureCount = s.pressureCount := rfl
@[simp] theorem clearStatus_temperatureCount (s : State) : (clearStatus s).temperatureCount = s.temperatureCount := rfl
@[simp] theorem clearStatus_calMin (s : State) : (clearStatus s).calMin = s.calMin := rfl
@[simp] theorem clearStatus_calMax (s : State) : (clearStatus s).calMax = s.calMax := rfl
@[simp] theorem clearStatus_statusReset (s : State) : (clearStatus s).statusReset = s.statusReset := rfl
@[simp] theorem clearStatus_inputs (s : State) : (clearStatus s).inputs = s.inputs := rfl
@[simp] theorem clearStatus_edge (s : State) : (clearStatus s).edge = s.edge := rfl

@[simp] theorem writeCounts_status (p : PressureCount) (t : TemperatureCount) (s : State) : (writeCounts p t s).status = s.status := rfl
@[simp] theorem writeCounts_statusValid (p : PressureCount) (t : TemperatureCount) (s : State) : (writeCounts p t s).statusValid = s.statusValid := rfl
@[simp] theorem writeCounts_pressureCount (p : PressureCount) (t : TemperatureCount) (s : State) : (writeCounts p t s).pressureCount = p := rfl
@[simp] theorem writeCounts_temperatureCount (p : PressureCount) (t : TemperatureCount) (s : State) : (writeCounts p t s).temperatureCount = t := rfl
@[simp] theorem writeCounts_calMin (p : PressureCount) (t : TemperatureCount) (s : State) : (writeCounts p t s).calMin = s.calMin := rfl
@[simp] theorem writeCounts_calMax (p : PressureCount) (t : TemperatureCount) (s : State) : (writeCounts p t s).calMax = s.calMax := rfl
@[simp] theorem writeCounts_statusReset (p : PressureCount) (t : TemperatureCount) (s : State) : (writeCounts p t s).statusReset = s.statusReset := rfl
@[simp] theorem writeCounts_inputs (p : PressureCount) (t : TemperatureCount) (s : State) : (writeCounts p t s).inputs = s.inputs := rfl
@[simp] theorem writeCounts_edge (p : PressureCount) (t : TemperatureCount) (s : State) : (writeCounts p t s).edge = s.edge := rfl

@[simp] theorem takeEdge_status (s : State) : (takeEdge s).status = s.status := rfl
@[simp] theorem takeEdge_statusValid (s : State) : (takeEdge s).statusValid = s.statusValid := rfl
@[simp] theorem takeEdge_pressureCount (s : State) : (takeEdge s).pressureCount = s.pressureCount := rfl
@[simp] theorem takeEdge_temperatureCount (s : State) : (takeEdge s).temperatureCount = s.temperatureCount := rfl
@[simp] theorem takeEdge_calMin (s : State) : (takeEdge s).calMin = s.calMin := rfl
@[simp] theorem takeEdge_calMax (s : State) : (takeEdge s).calMax = s.calMax := rfl
@[simp] theorem takeEdge_statusReset (s : State) : (takeEdge s).statusReset = s.statusReset := rfl
@[simp] theorem takeEdge_inputs (s : State) : (takeEdge s).inputs = s.inputs.tail := rfl
@[simp] theorem takeEdge_edge (s : State) : (takeEdge s).edge = s.edge + 1 := rfl

@[simp] theorem drive_status (words : List ControlWord) (s : State) : (drive words s).status = s.status := rfl
@[simp] theorem drive_statusValid (words : List ControlWord) (s : State) : (drive words s).statusValid = s.statusValid := rfl
@[simp] theorem drive_pressureCount (words : List ControlWord) (s : State) : (drive words s).pressureCount = s.pressureCount := rfl
@[simp] theorem drive_temperatureCount (words : List ControlWord) (s : State) : (drive words s).temperatureCount = s.temperatureCount := rfl
@[simp] theorem drive_calMin (words : List ControlWord) (s : State) : (drive words s).calMin = s.calMin := rfl
@[simp] theorem drive_calMax (words : List ControlWord) (s : State) : (drive words s).calMax = s.calMax := rfl
@[simp] theorem drive_statusReset (words : List ControlWord) (s : State) : (drive words s).statusReset = s.statusReset := rfl
@[simp] theorem drive_inputs (words : List ControlWord) (s : State) : (drive words s).inputs = words := rfl
@[simp] theorem drive_edge (words : List ControlWord) (s : State) : (drive words s).edge = s.edge := rfl

@[simp] theorem withFetchWord_eq_drive (s : State) (nbits w : Nat) :
    s.withFetchWord nbits w = drive (BitVec.ofNat 34 (w % 2 ^ nbits) :: s.inputs.tail) s := rfl

end Sys2Proof.Machine
end

