-- ==== Sys2Proof/Laws/Step.lean ====
section
/-! SUPPORT. Everything a meaning, a step and a run can do, said once. -/

namespace Sys2Proof.Machine

theorem step_eq (s : State) : step s = exec (decode (sampledWord s)) (takeEdge s) := rfl

theorem step_drive (cw : ControlWord) (rest : List ControlWord) (s : State) :
    step (drive (cw :: rest) s) = exec (decode cw) (takeEdge (drive (cw :: rest) s)) := rfl

/-- Everything an operation can do: clear, keep, record the status and replace the counts, or record the status alone. -/
theorem exec_cases (i : Instr) (s : State) :
    ((∃ v f, i = .reset v f) ∧ exec i s = .next (clearStatus (writeCounts 0#14 0#11 s))) ∨
    ((∃ f, i = .hold f) ∧ exec i s = .next s) ∨
    (∃ f, i = .decodeNormal f ∧ exec i s = .next (writeCounts (pcountField f) (tcountField f) (recordStatus f s))) ∨
    (∃ f, (i = .decodeCmd f ∨ i = .decodeStale f ∨ i = .decodeDiag f) ∧ exec i s = .next (recordStatus f s)) := by
  cases i with
  | reset v f => exact .inl ⟨⟨v, f, rfl⟩, rfl⟩
  | hold f => exact .inr (.inl ⟨⟨f, rfl⟩, rfl⟩)
  | decodeNormal f => exact .inr (.inr (.inl ⟨f, rfl, rfl⟩))
  | decodeCmd f => exact .inr (.inr (.inr ⟨f, .inl rfl, rfl⟩))
  | decodeStale f => exact .inr (.inr (.inr ⟨f, .inr (.inl rfl), rfl⟩))
  | decodeDiag f => exact .inr (.inr (.inr ⟨f, .inr (.inr rfl), rfl⟩))

theorem run_succ {s t : State} (k : Nat) (h : step s = .next t) : run (k + 1) s = run k t := by
  simp only [run, h]

theorem run_succ_refused {s : State} {r : Refusal} (k : Nat) (h : step s = .refused r) : run (k + 1) s = .refused r := by
  simp only [run, h]

/-- The host's own run is this one. -/
theorem core_run_eq_run (k : Nat) (s : State) : Host.Core.run core k s = run k s := by
  induction k generalizing s with
  | zero => rfl
  | succ k ih =>
    cases hs : step s with
    | next t =>
      have h : core.step s = .next t := hs
      rw [run_succ k hs]
      simp only [Host.Core.run, h]
      exact ih t
    | fault r => exact nomatch r
    | refused r =>
      have h : core.step s = .refused r := hs
      rw [run_succ_refused k hs]
      simp only [Host.Core.run, h]
      rfl

/-- What every step keeps, every run keeps. -/
theorem run_keeps {P : State → Prop} (hstep : ∀ s t, P s → step s = .next t → P t) :
    ∀ (k : Nat) (s t : State), P s → run k s = .next t → P t := by
  intro k
  induction k with
  | zero =>
    intro s t hs h
    cases h
    exact hs
  | succ k ih =>
    intro s t hs h
    cases hst : step s with
    | next u => exact ih u t (hstep s u hs hst) (run_succ k hst ▸ h)
    | fault r => exact nomatch r
    | refused r =>
      rw [run_succ_refused k hst] at h
      cases h

end Sys2Proof.Machine
end

