-- ==== Sys2Proof/Tests/Slice0.lean ====
section
/-! SUPPORT. The model's own tests: expected values are the spec's (95_test_vectors.md, named in each comment), and for every
statement with hypotheses a witness that meets them. -/

namespace Sys2Proof.Tests

open Sys2Proof.Machine

/-! ### Well-formedness: one ill-formed term for each check -/

theorem test_normal_with_code_1_is_ill_formed : (Instr.decodeNormal 0x40000000#32).wellFormed = false := by decide
theorem test_cmd_with_code_0_is_ill_formed : (Instr.decodeCmd 0x00000000#32).wellFormed = false := by decide
theorem test_stale_with_code_3_is_ill_formed : (Instr.decodeStale 0xC0000000#32).wellFormed = false := by decide
theorem test_diag_with_code_2_is_ill_formed : (Instr.decodeDiag 0xBFFFFFFF#32).wellFormed = false := by decide

/-! ### Decoding and encoding: words of 95_test_vectors.md and 30_encoding.md R61, R64 -/

-- V14
theorem test_decode_reset : decode 0x319996660#34 = .reset true 0x19996660#32 := by decide
-- V13
theorem test_decode_hold : decode 0x019996660#34 = .hold 0x19996660#32 := by decide
-- V1
theorem test_decode_normal : decode 0x119996660#34 = .decodeNormal 0x19996660#32 := by decide
-- P3, edge 2
theorem test_decode_cmd : decode 0x140640C80#34 = .decodeCmd 0x40640C80#32 := by decide
-- V10
theorem test_decode_stale : decode 0x180000000#34 = .decodeStale 0x80000000#32 := by decide
-- P2, edge 4
theorem test_decode_diag : decode 0x1FFFFFFE0#34 = .decodeDiag 0xFFFFFFE0#32 := by decide
-- V9, V13, V14
theorem test_encode : encode (.decodeCmd 0x59996660#32) = 0x159996660#34 ∧ encode (.hold 0x19996660#32) = 0x019996660#34 ∧
    encode (.reset true 0x19996660#32) = 0x319996660#34 := by decide
-- P2, P3: the pseudo-operations
theorem test_assemble : assemble (.frameNormal 8192#14 1024#11) = 0x120008000#34 ∧ assemble (.frameCmd 100#14 100#11) = 0x140640C80#34 ∧
    assemble (.frameStale 0#14 0#11) = 0x180000000#34 ∧ assemble (.frameDiag 16383#14 2047#11) = 0x1FFFFFFE0#34 := by decide
theorem test_wide_number_is_no_control_word : decodeTableWord 40 0x400000000 = none := by decide
theorem test_table_word : decodeTableWord 40 0x13FFF0000 = some (.decodeNormal 0x3FFF0000#32) := by decide

/-! ### The operations: 95_test_vectors.md section 2 -/

/-- A small state with the calibration 0.0 to 30.0 and STATUS_RESET 2. -/
def stateOf (status : StatusCode) (statusValid : Bool) (p : PressureCount) (t : TemperatureCount) : State where
  status := status
  statusValid := statusValid
  pressureCount := p
  temperatureCount := t
  calMin := 0x00000000#32
  calMax := 0x41F00000#32
  statusReset := 2#2
  inputs := []
  edge := 0

/-- The four registers after one edge with the given control word. -/
def registersAfter (cw : ControlWord) (s : State) : Option (StatusCode × Bool × PressureCount × TemperatureCount) :=
  match step (drive [cw] s) with
  | .next t => some (t.status, t.statusValid, t.pressureCount, t.temperatureCount)
  | _ => none

-- V14: RESET wins over the frame
theorem test_reset_wins : registersAfter 0x319996660#34 (stateOf 0 true 6553 819) = some (2, false, 0, 0) := by decide
-- V13
theorem test_hold_ignores_frame : registersAfter 0x019996660#34 (stateOf 2 true 100 7) = some (2, true, 100, 7) := by decide
-- V6: the low five bits are ignored
theorem test_normal_scenario : registersAfter 0x11999667F#34 (stateOf 3 true 0 0) = some (0, true, 6553, 819) := by decide
-- V8: the most significant bit of each field
theorem test_normal_high_bits : registersAfter 0x120008000#34 (stateOf 0 true 1 1) = some (0, true, 8192, 1024) := by decide
-- V9
theorem test_cmd_keeps_counts : registersAfter 0x159996660#34 (stateOf 0 true 1 2) = some (1, true, 1, 2) := by decide
-- V10
theorem test_stale_keeps_counts : registersAfter 0x180000000#34 (stateOf 0 true 6553 819) = some (2, true, 6553, 819) := by decide
-- V12: first frame after RESET
theorem test_diag_after_reset : registersAfter 0x1C0000000#34 (stateOf 2 false 0 0) = some (3, true, 0, 0) := by decide
theorem test_first_step_after_reset_runs_the_word :
    (match step (State.reset.withFetchWord 40 0x13FFFFFFF) with | .next t => (t.pressureCount, t.temperatureCount) | _ => (0, 0)) =
      (16383#14, 2047#11) := by decide

/-! ### The conversions: 95_test_vectors.md sections 3 and 4 (the kernel evaluates the exact rationals) -/

-- V20
theorem test_pressure_scenario : pfc 6553 0x00000000#32 0x41F00000#32 = some 0x4133FA60#32 := by decide +kernel
-- V16
theorem test_pressure_count_0 : pfc 0 0x00000000#32 0x41F00000#32 = some 0xC0700000#32 := by decide +kernel
-- V27
theorem test_pressure_exact_zero : pfc 8192 0xBF800000#32 0x3F800000#32 = some 0x00000000#32 := by decide +kernel
-- V33
theorem test_pressure_inverted : pfc 16383 0x00000000#32 0xC1700000#32 = some 0xC186FDA8#32 := by decide +kernel
-- V37, V39
theorem test_pressure_overflow : pfc 0 0xFF61B1E6#32 0x7F61B1E6#32 = some 0xFF800000#32 ∧
    pfc 16383 0xFF61B1E6#32 0x7F61B1E6#32 = some 0x7F800000#32 := by decide +kernel
-- V40
theorem test_pressure_negative_zero : pfc 100 0x80000000#32 0x80000000#32 = some 0x00000000#32 := by decide +kernel
-- V42, V43, V46, V48
theorem test_temperature : tfc 1 = 0xC2479BF3#32 ∧ tfc 511 = 0xBD9612C2#32 ∧ tfc 1023 = 0x4247CDFA#32 ∧ tfc 2046 = 0x4315E6FD#32 := by
  decide +kernel
-- V1: the outputs of the source's scenario
theorem test_outputs_scenario : (outputs (stateOf 0 true 6553 819)).pressure = 0x4133FA60#32 ∧
    (outputs (stateOf 0 true 6553 819)).temperature = 0x41F02805#32 := by decide +kernel
-- 2^24 + 1 is halfway between two words and goes to the even one; half the smallest subnormal goes to zero
theorem test_ties_to_even : rne32 (2 ^ 24 + 1) = 0x4B800000#32 ∧ rne32 (2 ^ 24 + 3) = 0x4B800002#32 ∧ rne32 (1 / 2 ^ 150) = 0#32 ∧
    rne32 (3 / 2 ^ 150) = 2#32 := by decide +kernel
-- V50, V51
theorem test_launch_refuses : (match launch 0x7F800000#32 0x41F00000#32 0 [] with | .refused r => some r | _ => none) = some .nonFiniteCalibration ∧
    (match launch 0x00000000#32 0x7FC00000#32 0 [] with | .refused r => some r | _ => none) = some .nonFiniteCalibration := by decide

/-! ### Witnesses: for each statement with hypotheses, values that meet them, clause by clause -/

theorem witness_DecodeAndEncodeAgree : (Instr.reset true 0xFFFFFFFF#32).wellFormed = true ∧ (Instr.hold 0xFFFFFFFF#32).wellFormed = true ∧
    (Instr.decodeNormal 0x3FFFFFFF#32).wellFormed = true ∧ (Instr.decodeCmd 0x40000000#32).wellFormed = true ∧
    (Instr.decodeStale 0xBFFFFFFF#32).wellFormed = true ∧ (Instr.decodeDiag 0xC0000000#32).wellFormed = true := by decide

theorem witness_FrameBytesArePackedBigEndian : (3 < 4 ∧ 7 < 8) ∧ (frameByte 0x00000080#32 3).getLsbD 7 = true := by decide

theorem witness_CountFieldsFollowSourceFormulas :
    ∃ (frame : Frame) (b : Nat → Nat), (∀ k, b k = (frameByte frame k).toNat) ∧ b 0 = 0x3F :=
  ⟨0x3FFFFFFF#32, fun k => (frameByte 0x3FFFFFFF#32 k).toNat, fun _ => rfl, by decide⟩

theorem witness_StatusCodeIsTotalMap : (isDecodeWord 0x13FFFFFFF#34 = true ∧ statusOfCode ((0x13FFFFFFF#34).extractLsb' 30 2) = .normal) ∧
    (isDecodeWord 0x140000000#34 = true ∧ statusOfCode ((0x140000000#34).extractLsb' 30 2) ≠ .normal) ∧
    (∃ t, step (drive [0x13FFFFFFF#34] (stateOf 0 true 0 0)) = .next t) ∧ ∃ t, step (drive [0x140000000#34] (stateOf 0 true 0 0)) = .next t :=
  ⟨by decide, by decide, ⟨_, rfl⟩, ⟨_, rfl⟩⟩

theorem witness_StepRunsTheDecodedOperation : (Instr.decodeDiag 0xFFFFFFFF#32).wellFormed = true ∧
    (drive [0x1FFFFFFFF#34] (stateOf 0 true 0 0)).inputs = encode (.decodeDiag 0xFFFFFFFF#32) :: [] ∧ (stateOf 0 true 0 0).inputs = [] := by decide

theorem witness_TableWordRunsNext : decodeTableWord 40 0x3FFFFFFFF = some (.reset true 0xFFFFFFFF#32) ∧
    decodeTableWord 40 0x400000000 = none ∧ 2 ^ 34 ≤ 0x400000000 % 2 ^ 40 := by decide

theorem witness_ResetResult : (0x3FFFFFFFF#34 &&& 0x200000000#34 = 0x200000000#34 ∧ 0x200000000#34 &&& 0x200000000#34 = 0x200000000#34) ∧
    ∃ t, exec (.reset false 0#32) (stateOf 0 true 6553 819) = .next t :=
  ⟨by decide, ⟨_, rfl⟩⟩

theorem witness_HoldResult : 0x0FFFFFFFF#34 &&& 0x300000000#34 = 0x000000000#34 ∧
    (∀ cw ∈ [0x000000000#34, 0x0FFFFFFFF#34], isHoldWord cw = true) ∧ (stateOf 0 true 6553 819).calibrationLegal = true :=
  ⟨by decide, List.all_eq_true.1 (by decide), by decide⟩

theorem witness_DecodeNormalResult : (Instr.decodeNormal 0x3FFFFFFF#32).wellFormed = true ∧
    0x13FFFFFFF#34 &&& 0x3C0000000#34 = 0x100000000#34 := by decide

theorem witness_NonNormalDecodeResults : (Instr.decodeCmd 0x7FFFFFFF#32).wellFormed = true ∧
    (Instr.decodeStale 0x80000000#32).wellFormed = true ∧ (Instr.decodeDiag 0xFFFFFFFF#32).wellFormed = true ∧
    0x17FFFFFFF#34 &&& 0x3C0000000#34 = 0x140000000#34 ∧ 0x180000000#34 &&& 0x3C0000000#34 = 0x180000000#34 ∧
    0x1FFFFFFFF#34 &&& 0x3C0000000#34 = 0x1C0000000#34 := by decide

theorem witness_EveryDecodeRecordsItsStatus : isDecodeWord 0x100000000#34 = true ∧ isDecodeWord 0x1FFFFFFFF#34 = true := by decide

theorem witness_IgnoredBitsHaveNoEffect : (0x119996660#34 >>> 5 = 0x11999667F#34 >>> 5 ∧ 0x119996660#34 ≠ 0x11999667F#34) ∧
    (isResetWord 0x200000000#34 = true ∧ isResetWord 0x3FFFFFFFF#34 = true) ∧
    (isHoldWord 0x000000000#34 = true ∧ isHoldWord 0x0FFFFFFFF#34 = true) ∧
    (isDecodeWord 0x140000000#34 = true ∧ isDecodeWord 0x17FFFFFFF#34 = true ∧ (0x140000000#34).extractLsb' 30 2 ≠ 0b00#2 ∧
      (0x140000000#34).extractLsb' 30 2 = (0x17FFFFFFF#34).extractLsb' 30 2) := by decide

theorem witness_OnlyItsWritersChangeARegister :
    (∃ t, step (drive [0x200000000#34] (stateOf 0 true 1 1)) = .next t ∧ t.status ≠ (stateOf 0 true 1 1).status ∧
      t.statusValid ≠ (stateOf 0 true 1 1).statusValid ∧ t.pressureCount ≠ (stateOf 0 true 1 1).pressureCount) ∧
    ∃ t, step (drive [0x100000020#34] (stateOf 2 false 0 0)) = .next t ∧ t.status ≠ (stateOf 2 false 0 0).status ∧
      t.statusValid ≠ (stateOf 2 false 0 0).statusValid ∧ t.temperatureCount ≠ (stateOf 2 false 0 0).temperatureCount :=
  ⟨⟨_, rfl, by decide, by decide, by decide⟩, ⟨_, rfl, by decide, by decide, by decide⟩⟩

theorem witness_NoOperationFaults : val32 0x7F800000#32 = none ∧ val32 0xFFFFFFFF#32 = none := by decide +kernel

theorem witness_ResetErasesThePast : isResetWord 0x200000000#34 = true ∧ stateOf 0 true 1 1 ≠ stateOf 3 false 16383 2047 ∧
    (stateOf 0 true 1 1).calMin = (stateOf 3 false 16383 2047).calMin ∧ (stateOf 0 true 1 1).calMax = (stateOf 3 false 16383 2047).calMax ∧
    (stateOf 0 true 1 1).statusReset = (stateOf 3 false 16383 2047).statusReset ∧
    (stateOf 0 true 1 1).edge = (stateOf 3 false 16383 2047).edge := by decide

theorem witness_LaunchStartsFromReset : val32 0x80000000#32 = some 0 ∧ val32 0x41F00000#32 = some 30 := by decide +kernel

theorem witness_OutputsBeforeFirstDecode : (stateOf 2 false 0 0).quietUntilDecoded ∧ (stateOf 2 false 0 0).statusValid = false ∧
    val32 (stateOf 2 false 0 0).calMin = some 0 ∧ val32 (stateOf 2 false 0 0).calMax = some 30 :=
  ⟨fun _ => ⟨rfl, rfl, rfl⟩, rfl, by decide +kernel, by decide +kernel⟩

theorem witness_EveryStepKeepsQuietUntilDecoded : (stateOf 2 false 0 0).quietUntilDecoded ∧
    (∃ t, step (stateOf 2 false 0 0) = .next t) ∧ (stateOf 3 true 5 5).quietUntilDecoded ∧
    ∃ t, run 2 (drive [0x200000000#34] (stateOf 3 true 5 5)) = .next t :=
  ⟨fun _ => ⟨rfl, rfl, rfl⟩, ⟨_, rfl⟩, fun h => (nomatch h), ⟨_, rfl⟩⟩

theorem witness_UndrivenEdgesHold : (stateOf 0 true 6553 819).inputs = [] := by decide

theorem witness_CountsAreOfTheLastNormalFrame :
    (∀ cw ∈ [0x000000000#34, 0x140000000#34, 0x1FFFFFFFF#34], isResetWord cw = false ∧ isNormalWord cw = false) ∧
    isNormalWord 0x13FFFFFFF#34 = true ∧ isResetWord 0x200000000#34 = true := by
  have h : [0x000000000#34, 0x140000000#34, 0x1FFFFFFFF#34].all (fun cw => !isResetWord cw && !isNormalWord cw) = true := by decide
  exact ⟨fun cw hcw => by simpa using List.all_eq_true.1 h cw hcw, by decide, by decide⟩

theorem witness_StatusIsOfTheLastDecodedFrame : (∀ w ∈ [0x000000000#34, 0x0FFFFFFFF#34], isHoldWord w = true) ∧
    isDecodeWord 0x1C0000000#34 = true ∧ isResetWord 0x3FFFFFFFF#34 = true :=
  ⟨List.all_eq_true.1 (by decide), by decide, by decide⟩

theorem witness_StatusValidFromFirstDecodeToReset : (isResetWord 0x200000000#34 = true ∧ ∀ w ∈ [0x000000000#34, 0x300000000#34], isDecodeWord w = false) ∧
    (isDecodeWord 0x100000000#34 = true ∧ ∀ w ∈ [0x000000000#34, 0x1FFFFFFFF#34], isResetWord w = false) := by
  have h : [0x000000000#34, 0x300000000#34].all (fun cw => !isDecodeWord cw) = true := by decide
  have h' : [0x000000000#34, 0x1FFFFFFFF#34].all (fun cw => !isResetWord cw) = true := by decide
  exact ⟨⟨by decide, fun cw hcw => by simpa using List.all_eq_true.1 h cw hcw⟩,
    by decide, fun cw hcw => by simpa using List.all_eq_true.1 h' cw hcw⟩

theorem witness_OperationsAreSequential : ∃ t, run 2 (drive [0x119996660#34, 0x000000000#34, 0x180000000#34] (stateOf 2 false 0 0)) = .next t ∧
    t.pressureCount = 6553 :=
  ⟨_, rfl, by decide⟩

theorem witness_ParametersNeverChange : ∃ t, run 2 (drive [0x200000000#34, 0x13FFFFFFF#34] (stateOf 0 true 1 1)) = .next t := ⟨_, rfl⟩

theorem witness_CalibrationReachesOnlyPressure : ∃ t, run 1 (drive [0x13FFFFFFF#34] (stateOf 0 true 1 1)) = .next t ∧
    val32 0x7FC00000#32 = none :=
  ⟨_, rfl, by decide +kernel⟩

theorem witness_HeldStrobeChangesNothingMore : isDecodeWord 0x119996660#34 = true := by decide

theorem witness_StaleCountsAreTold : (stateOf 0 true 6553 819).calibrationLegal = true ∧
    (isDecodeWord 0x100000000#34 = true ∧
      (match step (drive [0x100000000#34] (stateOf 0 true 6553 819)) with | .next t => t.countsAreFresh | _ => false) = true) ∧
    (isDecodeWord 0x1FFFFFFFF#34 = true ∧
      (match step (drive [0x1FFFFFFFF#34] (stateOf 0 true 6553 819)) with | .next t => t.countsAreFresh | _ => true) = false) := by decide

theorem witness_PressureExactPoints : ((0 : Rat) < 30 ∧ val32 0x00000000#32 = some 0 ∧ val32 0x41F00000#32 = some 30) ∧
    ((-15 : Rat) < 0 ∧ val32 0x00000000#32 = some 0 ∧ val32 0xC1700000#32 = some (-15)) := by decide +kernel

theorem witness_PressureOutput : val32 (stateOf 0 true 6553 819).calMin = some 0 ∧ val32 (stateOf 0 true 6553 819).calMax = some 30 := by decide +kernel

theorem witness_InvertedAndFlatRanges : ((-15 : Rat) < 0 ∧ (0 : Rat) < 16383) ∧ (val32 0x40A00000#32 = some 5 ∧ (5 : Rat) ≠ 0) ∧
    val32 0x80000000#32 = some 0 ∧ val32 0x00000000#32 = some 0 := by decide +kernel

theorem witness_PressureIsMonotoneInTheCount : val32 0x00000000#32 = some 0 ∧ val32 0x41F00000#32 = some 30 ∧ val32 0xC1700000#32 = some (-15) ∧
    (0#14).toNat ≤ (16383#14).toNat ∧ (0 : Rat) ≤ 30 ∧ (-15 : Rat) ≤ 0 := by decide +kernel

/-- V39, V37 and V38 for the first three clauses, the range 0.0 to 30.0 for the bound. -/
theorem witness_PressureOverflow : ∃ A B : Rat, val32 0xFF61B1E6#32 = some A ∧ val32 0x7F61B1E6#32 = some B ∧
    2 ^ 128 - 2 ^ 103 ≤ pfcExact 16383 A B ∧ pfcExact 0 A B ≤ -(2 ^ 128 - 2 ^ 103) ∧ |pfcExact 8192 A B| < 2 ^ 128 - 2 ^ 103 ∧
    calibrationBounded 0 30 := by
  refine ⟨-(14791142 * 2 ^ 104), 14791142 * 2 ^ 104, by decide +kernel, by decide +kernel, ?_, ?_, ?_, ?_⟩ <;>
    norm_num [pfcExact, minCount, maxCount, calibrationBounded]

/-- The clauses where they meet, by hand from R86 at count 0, `A - (B - A)/8`: exactly the midpoint 2^128 - 2^103 (the tie goes up), its
negative, 2^101 below it (the largest finite word), and the largest flat range within the bound. -/
theorem witness_PressureOverflow_boundary :
    (∃ A B : Rat, val32 0x7F638E39#32 = some A ∧ val32 0x74A00000#32 = some B ∧ pfcExact 0 A B = 2 ^ 128 - 2 ^ 103 ∧
      pfc 0#14 0x7F638E39#32 0x74A00000#32 = some 0x7F800000#32) ∧
    (∃ A B : Rat, val32 0xFF638E39#32 = some A ∧ val32 0xF4A00000#32 = some B ∧ pfcExact 0 A B = -(2 ^ 128 - 2 ^ 103) ∧
      pfc 0#14 0xFF638E39#32 0xF4A00000#32 = some 0xFF800000#32) ∧
    (∃ A B : Rat, val32 0x7F638E39#32 = some A ∧ val32 0x74C00000#32 = some B ∧ pfcExact 0 A B = 2 ^ 128 - 2 ^ 103 - 2 ^ 101 ∧
      pfc 0#14 0x7F638E39#32 0x74C00000#32 = some 0x7F7FFFFF#32) ∧
    ∃ A : Rat, val32 0x7F7FC99E#32 = some A ∧ calibrationBounded A A := by
  refine ⟨⟨14913081 * 2 ^ 104, 5 * 2 ^ 104, by decide +kernel, by decide +kernel, ?_, by decide +kernel⟩,
    ⟨-(14913081 * 2 ^ 104), -(5 * 2 ^ 104), by decide +kernel, by decide +kernel, ?_, by decide +kernel⟩,
    ⟨14913081 * 2 ^ 104, 6 * 2 ^ 104, by decide +kernel, by decide +kernel, ?_, by decide +kernel⟩,
    16763294 * 2 ^ 104, by decide +kernel, ?_⟩ <;>
    norm_num [pfcExact, minCount, maxCount, calibrationBounded]

theorem witness_NonFiniteCalibrationLeavesPressureOpen :
    val32 { stateOf 0 true 1 1 with calMin := 0x7F800000#32 }.calMin = none ∧
    val32 { stateOf 0 true 1 1 with calMax := 0x7FC00000#32 }.calMax = none := by decide +kernel

theorem witness_TemperatureRange : ((0 : Rat) < 2047) ∧ tfcExact (0 : Nat) < 0 ∧ ¬ tfcExact (512 : Nat) < 0 := by decide +kernel

theorem witness_ConversionsArePure : stateOf 0 true 6553 819 ≠ stateOf 3 false 6553 819 ∧
    (stateOf 0 true 6553 819).pressureCount = (stateOf 3 false 6553 819).pressureCount ∧
    (stateOf 0 true 6553 819).temperatureCount = (stateOf 3 false 6553 819).temperatureCount ∧
    (stateOf 0 true 6553 819).calMin = (stateOf 3 false 6553 819).calMin ∧ (stateOf 0 true 6553 819).calMax = (stateOf 3 false 6553 819).calMax ∧
    (stateOf 0 true 6553 819).calibrationLegal = true := by decide

theorem witness_WordValueIsBinary32 : exponentField 0xFF800000#32 = 0xFF#8 ∧ exponentField 0x80000001#32 = 0#8 ∧
    (exponentField 0x7F7FFFFF#32 ≠ 0#8 ∧ exponentField 0x7F7FFFFF#32 ≠ 0xFF#8) := by decide

theorem witness_RoundingIsNearestTiesToEven : ((2 : Rat) ^ 128 - 2 ^ 103 ≤ 2 ^ 128 - 2 ^ 103) ∧ |(1 : Rat) / 2 ^ 150| < 2 ^ 128 - 2 ^ 103 ∧
    val32 0x00000001#32 = some (1 / 2 ^ 149) :=
  ⟨le_refl _, by norm_num [abs_of_pos], by decide +kernel⟩

theorem witness_RoundingReturnsItsOwnNumbers : (val32 0x80000001#32 = some (-(1 / 2 ^ 149)) ∧ (-(1 / 2 ^ 149) : Rat) ≠ 0) ∧
    val32 0x80000000#32 = some 0 := by decide +kernel

end Sys2Proof.Tests
end

section
/-! Words by what they ask for, and what a step does for each (30_encoding.md R61, 40_frame_decoder.md R70 to R77). -/

namespace Sys2Proof.Machine

theorem pcountField_framePort (cw : ControlWord) : pcountField (framePort cw) = cw.extractLsb' 16 14 := by
  apply BitVec.eq_of_getLsbD_eq
  intro i hi
  simp only [pcountField, framePort, BitVec.getLsbD_extractLsb']
  simp [hi]
  omega

theorem tcountField_framePort (cw : ControlWord) : tcountField (framePort cw) = cw.extractLsb' 5 11 := by
  apply BitVec.eq_of_getLsbD_eq
  intro i hi
  simp only [tcountField, framePort, BitVec.getLsbD_extractLsb']
  simp [hi]
  omega

theorem isResetWord_eq (cw : ControlWord) : isResetWord cw = rstBit cw := rfl

theorem isHoldWord_eq (cw : ControlWord) : isHoldWord cw = (!rstBit cw && !frameValidBit cw) := rfl

theorem isDecodeWord_eq (cw : ControlWord) : isDecodeWord cw = (!rstBit cw && frameValidBit cw) := rfl

theorem isNormalWord_eq (cw : ControlWord) :
    isNormalWord cw = (isDecodeWord cw && statusField (framePort cw) == 0b00#2) := by
  rw [isNormalWord, statusField_framePort]

/-- Every control word is of one of the four kinds that change the registers in their own way. -/
theorem word_cases (cw : ControlWord) :
    isResetWord cw = true ∨ isHoldWord cw = true ∨ isNormalWord cw = true ∨
      (isDecodeWord cw = true ∧ isNormalWord cw = false) := by
  rw [isNormalWord_eq, isResetWord_eq, isHoldWord_eq, isDecodeWord_eq]
  cases rstBit cw with
  | true => exact .inl rfl
  | false =>
    cases frameValidBit cw with
    | false => exact .inr (.inl rfl)
    | true =>
      cases statusField (framePort cw) == 0b00#2 with
      | true => exact .inr (.inr (.inl rfl))
      | false => exact .inr (.inr (.inr ⟨rfl, rfl⟩))

theorem step_of_reset {s : State} (hw : isResetWord (sampledWord s) = true) :
    step s = .next (clearStatus (writeCounts 0#14 0#11 (takeEdge s))) := by
  rw [isResetWord_eq] at hw
  rw [step_eq, decode, if_pos hw]
  rfl

theorem step_of_hold {s : State} (hw : isHoldWord (sampledWord s) = true) : step s = .next (takeEdge s) := by
  simp only [isHoldWord_eq, Bool.and_eq_true, Bool.not_eq_true'] at hw
  obtain ⟨hr, hv⟩ := hw
  have hd : decode (sampledWord s) = .hold (framePort (sampledWord s)) := by simp [decode, hr, hv]
  rw [step_eq, hd]
  rfl

theorem decode_of_strobe {cw : ControlWord} (hw : isDecodeWord cw = true) : decode cw = decodeFrame (framePort cw) := by
  simp only [isDecodeWord_eq, Bool.and_eq_true, Bool.not_eq_true'] at hw
  obtain ⟨hr, hv⟩ := hw
  simp [decode, hr, hv]

theorem step_of_normal {s : State} (hw : isNormalWord (sampledWord s) = true) :
    step s = .next (writeCounts ((sampledWord s).extractLsb' 16 14) ((sampledWord s).extractLsb' 5 11)
      (recordStatus (framePort (sampledWord s)) (takeEdge s))) := by
  simp only [isNormalWord_eq, Bool.and_eq_true, beq_iff_eq] at hw
  obtain ⟨hdecode, hcode⟩ := hw
  have hd : decodeFrame (framePort (sampledWord s)) = .decodeNormal (framePort (sampledWord s)) := by
    simp [decodeFrame, statusOfCode, hcode]
  rw [step_eq, decode_of_strobe hdecode, hd, ← pcountField_framePort, ← tcountField_framePort]
  rfl

theorem step_of_nonNormal {s : State} (hw : isDecodeWord (sampledWord s) = true)
    (hn : isNormalWord (sampledWord s) = false) :
    step s = .next (recordStatus (framePort (sampledWord s)) (takeEdge s)) := by
  rw [step_eq, decode_of_strobe hw]
  rw [isNormalWord_eq, hw] at hn
  obtain ⟨hcode, -⟩ | ⟨-, hd⟩ | ⟨-, hd⟩ | ⟨-, hd⟩ := decodeFrame_cases (framePort (sampledWord s))
  · simp [hcode] at hn
  all_goals rw [hd]; rfl

/-- No edge faults or is refused, and an edge takes exactly its own control word (60_exceptions.md R110). -/
theorem step_next (s : State) : ∃ t, step s = .next t ∧ t.inputs = s.inputs.tail := by
  obtain hw | hw | hw | ⟨hw, hn⟩ := word_cases (sampledWord s)
  · exact ⟨_, step_of_reset hw, rfl⟩
  · exact ⟨_, step_of_hold hw, rfl⟩
  · exact ⟨_, step_of_normal hw, rfl⟩
  · exact ⟨_, step_of_nonNormal hw hn, rfl⟩

/-! ### Runs -/

theorem run_add {m : Nat} {s t : State} (n : Nat) (h : run m s = .next t) : run (m + n) s = run n t := by
  induction m generalizing s with
  | zero => cases h; rw [Nat.zero_add]
  | succ m ih =>
    obtain ⟨u, hu, -⟩ := step_next s
    rw [run_succ m hu] at h
    rw [Nat.add_right_comm, run_succ _ hu, ih h]

/-- A run over driven words completes and takes exactly these; what each of their edges keeps, it keeps. -/
theorem run_words_keeps {P : State → Prop} (rest : List ControlWord) :
    ∀ (words : List ControlWord) (s : State),
      (∀ u v, sampledWord u ∈ words → P u → step u = .next v → P v) → s.inputs = words ++ rest → P s →
      ∃ t, run words.length s = .next t ∧ t.inputs = rest ∧ P t := by
  intro words
  induction words with
  | nil => intro s _ hs hP; exact ⟨s, rfl, hs, hP⟩
  | cons cw words ih =>
    intro s hstep hs hP
    obtain ⟨u, hu, hrest⟩ := step_next s
    have hmem : sampledWord s ∈ cw :: words := by simp [sampledWord, hs]
    obtain ⟨t, ht, hin, hPt⟩ := ih u (fun a b ha => hstep a b (List.mem_cons_of_mem cw ha))
      (by rw [hrest, hs]; rfl) (hstep s u hmem hP hu)
    exact ⟨t, (run_succ _ hu).trans ht, hin, hPt⟩

theorem run_words_next (words rest : List ControlWord) (s : State) (hs : s.inputs = words ++ rest) :
    ∃ t, run words.length s = .next t ∧ t.inputs = rest := by
  obtain ⟨t, ht, hin, -⟩ := run_words_keeps (P := fun _ => True) rest words s (fun _ _ _ _ _ => trivial) hs trivial
  exact ⟨t, ht, hin⟩

/-! ### The counts -/

/-- The two held counts are these. -/
def State.holdsCounts (s : State) (p : PressureCount) (t : TemperatureCount) : Prop :=
  s.pressureCount = p ∧ s.temperatureCount = t

theorem step_counts_of_reset {s t : State} (hw : isResetWord (sampledWord s) = true) (h : step s = .next t) :
    t.holdsCounts 0#14 0#11 := by
  cases (step_of_reset hw).symm.trans h
  exact ⟨rfl, rfl⟩

theorem step_counts_of_normal {s t : State} (hw : isNormalWord (sampledWord s) = true) (h : step s = .next t) :
    t.holdsCounts ((sampledWord s).extractLsb' 16 14) ((sampledWord s).extractLsb' 5 11) := by
  cases (step_of_normal hw).symm.trans h
  exact ⟨rfl, rfl⟩

theorem step_keeps_counts {s t : State} {p : PressureCount} {c : TemperatureCount}
    (hr : isResetWord (sampledWord s) = false) (hn : isNormalWord (sampledWord s) = false)
    (hs : s.holdsCounts p c) (h : step s = .next t) : t.holdsCounts p c := by
  obtain hw | hw | hw | ⟨hw, -⟩ := word_cases (sampledWord s)
  · rw [hw] at hr; cases hr
  · cases (step_of_hold hw).symm.trans h
    exact hs
  · rw [hw] at hn; cases hn
  · cases (step_of_nonNormal hw hn).symm.trans h
    exact hs

/-- Words that are neither RESET nor DECODE.NORMAL keep the counts. -/
theorem run_keeps_counts {after : List ControlWord}
    (hafter : ∀ cw ∈ after, isResetWord cw = false ∧ isNormalWord cw = false)
    {s : State} (hs : s.inputs = after) {p : PressureCount} {c : TemperatureCount} (hc : s.holdsCounts p c) :
    ∃ t, run after.length s = .next t ∧ t.holdsCounts p c := by
  obtain ⟨t, ht, -, hct⟩ := run_words_keeps (P := fun u => u.holdsCounts p c) [] after s
    (fun u v hu hcu huv => step_keeps_counts (hafter _ hu).1 (hafter _ hu).2 hcu huv) (by simpa using hs) hc
  exact ⟨t, ht, hct⟩

/-- Settles O27: the words before end in some state; the edge of `cw` sets the counts; the words after it keep them. -/
theorem countsAreOfTheLastNormalFrame : Obligations.CountsAreOfTheLastNormalFrame := by
  intro before after s hafter
  refine ⟨run_keeps_counts hafter rfl ⟨rfl, rfl⟩, fun cw => ?_⟩
  obtain ⟨u, hu, huin⟩ := run_words_next before (cw :: after) (drive (before ++ cw :: after) s) rfl
  obtain ⟨v, hv, hvin⟩ := step_next u
  have hcw : sampledWord u = cw := by simp [sampledWord, huin]
  obtain ⟨t, ht, hcounts⟩ := run_keeps_counts hafter (s := v) (by rw [hvin, huin]; rfl) ⟨rfl, rfl⟩
  have hrun : run (before ++ cw :: after).length (drive (before ++ cw :: after) s) = .next t := by
    rw [List.length_append, run_add _ hu, List.length_cons, run_succ _ hv, ht]
  refine ⟨t, hrun, fun hn => ?_, fun hr => ?_⟩
  · obtain ⟨hp, hc⟩ := step_counts_of_normal (hcw ▸ hn) hv
    rw [hcw] at hp hc
    exact ⟨hcounts.1.trans hp, hcounts.2.trans hc⟩
  · obtain ⟨hp, hc⟩ := step_counts_of_reset (hcw ▸ hr) hv
    exact ⟨hcounts.1.trans hp, hcounts.2.trans hc⟩

end Sys2Proof.Machine
end

section
/-! The value of a word, and `rne32` as the rounding of 00_scope.md R15: what is nearest, and where it overflows. -/

namespace Sys2Proof.Machine

/-! ### The value of a word -/

theorem val32_of_finite {w : Binary32} (h : isFinite w = true) :
    val32 w = some ((-1) ^ (signBit w).toNat * ((magnitudeUnits w : Rat) / 2 ^ 149)) := by
  rw [val32, if_pos h]
  cases signBit w <;> simp

theorem isFinite_of_val32 {w : Binary32} {u : Rat} (h : val32 w = some u) : isFinite w = true := by
  by_contra hf
  rw [val32, if_neg hf] at h
  cases h

theorem two_zpow_exponent (k : Nat) : (2 : Rat) ^ ((k + 1 : Nat) - 127 : Int) = 2 ^ k / 2 ^ 126 := by
  rw [show ((k + 1 : Nat) - 127 : Int) = (k : Int) - (126 : Nat) by push_cast; ring, zpow_sub₀ two_ne_zero, zpow_natCast,
    zpow_natCast]

/-- Settles O48: an infinity or a NaN is not finite, and a finite word's units of 2^-149 are the formula of its exponent field. -/
theorem wordValueIsBinary32 : Obligations.WordValueIsBinary32 := by
  refine fun w => ⟨fun he => ?_, fun he => ?_, fun h0 h255 => ?_⟩
  · simp [val32, isFinite, he]
  · rw [val32_of_finite (by simp [isFinite, he]), magnitudeUnits, if_pos he]
    congr 1
    norm_num
    ring
  · rw [val32_of_finite (by simpa [isFinite] using h255), magnitudeUnits, if_neg h0]
    obtain ⟨k, hk⟩ : ∃ k, (exponentField w).toNat = k + 1 := Nat.exists_eq_add_one.2 (by
      rw [Nat.pos_iff_ne_zero]
      exact fun h => h0 (BitVec.eq_of_toNat_eq h))
    rw [hk, two_zpow_exponent]
    congr 1
    norm_num
    ring

/-- The magnitude of the word whose low 31 bits are `b`, were the exponent unbounded. -/
def magnitudeAt (b : Nat) : Rat := unitsAt b / 2 ^ 149

theorem magnitudeAt_strictMono : StrictMono magnitudeAt := fun _ _ h =>
  div_lt_div_of_pos_right (Nat.cast_lt.2 (unitsAt_strictMono h)) (by positivity)

theorem magnitudeAt_infinity : magnitudeAt 0x7F800000 = 2 ^ 128 := by norm_num [magnitudeAt, unitsAt]

theorem magnitudeAt_largest : magnitudeAt 0x7F7FFFFF = 2 ^ 128 - 2 ^ 104 := by norm_num [magnitudeAt, unitsAt]

theorem abs_val32 {w : Binary32} {u : Rat} (h : val32 w = some u) : |u| = magnitudeAt (w.toNat % 2 ^ 31) := by
  rw [val32_of_finite (isFinite_of_val32 h), Option.some_inj, magnitudeUnits_eq_unitsAt] at h
  rw [← h, abs_mul, abs_pow, abs_neg, abs_one, one_pow, one_mul, abs_of_nonneg (by positivity),
    magnitudeAt]

theorem val32_nonpos {w : Binary32} {u : Rat} (h : val32 w = some u) (hs : signBit w = true) : u ≤ 0 := by
  rw [val32_of_finite (isFinite_of_val32 h), hs, Option.some_inj] at h
  rw [← h]
  simp only [Bool.toNat_true, pow_one, neg_one_mul, Left.neg_nonpos_iff]
  positivity

theorem val32_nonneg {w : Binary32} {u : Rat} (h : val32 w = some u) (hs : signBit w = false) : 0 ≤ u := by
  rw [val32_of_finite (isFinite_of_val32 h), hs, Option.some_inj] at h
  rw [← h]
  simp only [Bool.toNat_false, pow_zero, one_mul]
  positivity

theorem val32_neg_iff {w : Binary32} {u : Rat} (h : val32 w = some u) (hu : u ≠ 0) : u < 0 ↔ signBit w = true := by
  cases hs : signBit w with
  | true => simpa using lt_of_le_of_ne (val32_nonpos h hs) hu
  | false => simpa using val32_nonneg h hs

theorem toNat_eq_sign_add (w : Binary32) : w.toNat = (if signBit w = true then 2 ^ 31 else 0) + w.toNat % 2 ^ 31 := by
  have hw := w.isLt
  have hs : signBit w = decide (2 ^ 31 ≤ w.toNat) := BitVec.msb_eq_decide w
  simp only [hs, decide_eq_true_eq]
  split <;> omega

/-! ### The magnitude `rne32` chooses -/

/-- The low 31 bits of the word nearest to the magnitude of `q`, were the exponent unbounded. -/
def nearestMagnitude (q : Rat) : Nat := magnitudeWord (q.num.natAbs * 2 ^ 149) q.den

theorem rne32_toNat_eq (q : Rat) :
    (rne32 q).toNat = (if q < 0 then 2 ^ 31 else 0) + min (nearestMagnitude q) 0x7F800000 := rne32_toNat q

theorem rne32_low_bits (q : Rat) : (rne32 q).toNat % 2 ^ 31 = min (nearestMagnitude q) 0x7F800000 := rne32_magnitude q

/-- `magnitudeWord_nearest` for the magnitude of a rational. -/
theorem nearestMagnitude_nearest (q : Rat) (b : Nat) :
    |magnitudeAt (nearestMagnitude q) - (|q|)| < |magnitudeAt b - (|q|)| ∨
    (|magnitudeAt (nearestMagnitude q) - (|q|)| = |magnitudeAt b - (|q|)| ∧
      (b = nearestMagnitude q ∨ nearestMagnitude q % 2 = 0)) := by
  have hunits : ((q.num.natAbs * 2 ^ 149 : Nat) : Rat) / q.den = 2 ^ 149 * |q| := by
    rw [Rat.abs_def, Rat.divInt_eq_div]
    push_cast [Nat.cast_natAbs]
    ring
  have hdist : ∀ c, |magnitudeAt c - (|q|)| = |(unitsAt c : Rat) - 2 ^ 149 * (|q|)| / 2 ^ 149 := fun c => by
    rw [magnitudeAt, div_sub' (by positivity), abs_div, abs_of_pos (show (0 : Rat) < 2 ^ 149 by positivity)]
  rw [hdist, hdist, div_lt_div_iff_of_pos_right (by positivity), div_left_inj' (by positivity), ← hunits]
  exact magnitudeWord_nearest _ _ q.den_pos b

theorem nearestMagnitude_le (q : Rat) (b : Nat) :
    |magnitudeAt (nearestMagnitude q) - (|q|)| ≤ |magnitudeAt b - (|q|)| :=
  (nearestMagnitude_nearest q b).elim le_of_lt fun h => h.1.le

/-- A magnitude that a word has is rounded to that word. -/
theorem nearestMagnitude_eq {q : Rat} {b : Nat} (h : |q| = magnitudeAt b) : nearestMagnitude q = b := by
  have hle := nearestMagnitude_le q b
  rw [h, sub_self, abs_zero, abs_nonpos_iff, sub_eq_zero] at hle
  exact magnitudeAt_strictMono.injective hle

/-- Below the midpoint between the largest finite word and 2^128, the largest finite word is nearer than 2^128; from the midpoint
on it is not, and its word is odd, so that the tie does not go to it. -/
theorem nearestMagnitude_finite_iff (q : Rat) : nearestMagnitude q < 0x7F800000 ↔ |q| < 2 ^ 128 - 2 ^ 103 := by
  constructor
  · intro hfinite
    by_contra hq
    have hlargest := magnitudeAt_strictMono.monotone (Nat.le_of_lt_succ hfinite)
    have hnearest := nearestMagnitude_nearest q 0x7F800000
    rw [magnitudeAt_largest] at hlargest
    rw [magnitudeAt_infinity, abs_of_neg (by linarith)] at hnearest
    rcases hnearest with hlt | ⟨heq, hword | heven⟩
    · rcases abs_cases ((2 : Rat) ^ 128 - |q|) with ⟨h, -⟩ | ⟨h, -⟩ <;> linarith
    · omega
    · have hsmaller := magnitudeAt_strictMono (show nearestMagnitude q < 0x7F7FFFFF by omega)
      rw [magnitudeAt_largest] at hsmaller
      rcases abs_cases ((2 : Rat) ^ 128 - |q|) with ⟨h, -⟩ | ⟨h, -⟩ <;> linarith
  · intro hq
    by_contra hinfinite
    have hinf := magnitudeAt_strictMono.monotone (Nat.le_of_not_lt hinfinite)
    have hle := nearestMagnitude_le q 0x7F7FFFFF
    rw [magnitudeAt_infinity] at hinf
    rw [magnitudeAt_largest, abs_of_pos (by linarith)] at hle
    rcases abs_cases ((2 : Rat) ^ 128 - 2 ^ 104 - |q|) with ⟨h, -⟩ | ⟨h, -⟩ <;> linarith

/-! ### What `rne32` gives -/

theorem isFinite_rne32_iff (q : Rat) : isFinite (rne32 q) = true ↔ |q| < 2 ^ 128 - 2 ^ 103 := by
  rw [isFinite_iff, rne32_low_bits, ← nearestMagnitude_finite_iff]
  omega

theorem rne32_eq_of_neg {q : Rat} {w : Binary32} (hq : q < 0)
    (h : w.toNat = 2 ^ 31 + min (nearestMagnitude q) 0x7F800000) : rne32 q = w :=
  BitVec.eq_of_toNat_eq (by rw [rne32_toNat_eq, if_pos hq, h])

theorem rne32_eq_of_nonneg {q : Rat} {w : Binary32} (hq : 0 ≤ q)
    (h : w.toNat = min (nearestMagnitude q) 0x7F800000) : rne32 q = w :=
  BitVec.eq_of_toNat_eq (by rw [rne32_toNat_eq, if_neg (not_lt.2 hq), h, Nat.zero_add])

theorem nearestMagnitude_infinite {q : Rat} (h : 2 ^ 128 - 2 ^ 103 ≤ |q|) : min (nearestMagnitude q) 0x7F800000 = 0x7F800000 :=
  min_eq_right (not_lt.1 fun hlt => not_lt.2 h ((nearestMagnitude_finite_iff q).1 hlt))

theorem rne32_of_overflow {q : Rat} (h : 2 ^ 128 - 2 ^ 103 ≤ q) : rne32 q = 0x7F800000#32 :=
  rne32_eq_of_nonneg (by linarith) (by rw [nearestMagnitude_infinite (h.trans (le_abs_self q))]; rfl)

theorem rne32_of_negative_overflow {q : Rat} (h : q ≤ -(2 ^ 128 - 2 ^ 103)) : rne32 q = 0xFF800000#32 :=
  rne32_eq_of_neg (by linarith) (by rw [nearestMagnitude_infinite (le_abs.2 (.inr (le_neg.2 h)))]; rfl)

theorem rne32_zero : rne32 0 = 0x00000000#32 :=
  rne32_eq_of_nonneg le_rfl (by rw [nearestMagnitude_eq (b := 0) (by simp [magnitudeAt, unitsAt])]; rfl)

/-- Settles O50: the word's own magnitude is the nearest to its value, and the sign of a value that is not zero is the word's. -/
theorem roundingReturnsItsOwnNumbers : Obligations.RoundingReturnsItsOwnNumbers := by
  refine fun w v hv => ⟨fun hne => ?_, fun h0 => h0 ▸ rne32_zero⟩
  have hfinite := (isFinite_iff w).1 (isFinite_of_val32 hv)
  apply BitVec.eq_of_toNat_eq
  rw [rne32_toNat_eq, nearestMagnitude_eq (abs_val32 hv), min_eq_left hfinite.le]
  simp only [val32_neg_iff hv hne]
  exact (toNat_eq_sign_add w).symm

/-- The value `rne32` gives below the overflow has the nearest magnitude, and the sign of `q`. -/
theorem val32_rne32 {q : Rat} (h : |q| < 2 ^ 128 - 2 ^ 103) :
    ∃ v, val32 (rne32 q) = some v ∧ |v| = magnitudeAt (nearestMagnitude q) ∧ 0 ≤ v * q := by
  have hv := val32_of_finite ((isFinite_rne32_iff q).2 h)
  refine ⟨_, hv, ?_, ?_⟩
  · rw [abs_val32 hv, rne32_low_bits, min_eq_left ((nearestMagnitude_finite_iff q).2 h).le]
  · rcases lt_or_ge q 0 with hq | hq
    · exact mul_nonneg_of_nonpos_of_nonpos (val32_nonpos hv (by simp [rne32_sign, hq])) hq.le
    · exact mul_nonneg (val32_nonneg hv (by simp [rne32_sign, hq])) hq

theorem abs_sub_of_same_sign {v q : Rat} (h : 0 ≤ v * q) : |v - q| = |(|v|) - (|q|)| := by
  rcases lt_trichotomy q 0 with hq | rfl | hq
  · have hv : v ≤ 0 := by nlinarith
    rw [abs_of_neg hq, abs_of_nonpos hv, ← abs_neg]
    congr 1
    ring
  · simp
  · have hv : 0 ≤ v := by nlinarith
    rw [abs_of_pos hq, abs_of_nonneg hv]

theorem rne32_even {q : Rat} (h : |q| < 2 ^ 128 - 2 ^ 103) (heven : nearestMagnitude q % 2 = 0) :
    (rne32 q).getLsbD 0 = false := by
  have hlow := rne32_low_bits q
  rw [min_eq_left ((nearestMagnitude_finite_iff q).2 h).le] at hlow
  rw [BitVec.getLsbD, Nat.testBit_zero, decide_eq_false_iff_not]
  omega

/-- Two values of one magnitude that are equally far from `q` are one value, or `q` is zero. -/
theorem eq_of_abs_eq_of_abs_sub_eq {u v q : Rat} (habs : |u| = |v|) (hdist : |v - q| = |u - q|) (hq : q ≠ 0) : u = v := by
  rcases abs_eq_abs.1 habs with h | h
  · exact h
  · have hzero : v * q = 0 := by
      have := (sq_eq_sq_iff_abs_eq_abs _ _).2 hdist
      rw [h] at this
      linarith
    have hv : v = 0 := (mul_eq_zero.1 hzero).resolve_right hq
    rw [h, hv, neg_zero]

/-- Settles O49. The nearest magnitude with the sign of `q` is nearest among all finite words, since a word of the other sign is
farther from `q` than its magnitude is from `|q|`. -/
theorem roundingIsNearestTiesToEven : Obligations.RoundingIsNearestTiesToEven := by
  refine ⟨rne32_zero, fun q => ⟨rne32_sign q, rne32_of_overflow, rne32_of_negative_overflow, fun hq => ?_⟩⟩
  obtain ⟨v, hv, hvabs, hsign⟩ := val32_rne32 hq
  refine ⟨v, hv, fun w u hu => ?_⟩
  have hfar : |(|u|) - (|q|)| ≤ |u - q| := abs_abs_sub_abs_le_abs_sub u q
  have hnearest := nearestMagnitude_nearest q (w.toNat % 2 ^ 31)
  rw [← hvabs, ← abs_val32 hu, ← abs_sub_of_same_sign hsign] at hnearest
  rcases hnearest with hlt | ⟨heq, htie⟩
  · exact .inl (hlt.trans_le hfar)
  · rcases hfar.lt_or_eq with hlt | hsame
    · exact .inl (heq.trans_lt hlt)
    · have hdist : |v - q| = |u - q| := heq.trans hsame
      refine .inr ⟨hdist, ?_⟩
      rcases htie with hword | heven
      · rcases eq_or_ne q 0 with rfl | hq0
        · exact .inr (by rw [rne32_zero]; rfl)
        · exact .inl (eq_of_abs_eq_of_abs_sub_eq (by rw [hvabs, abs_val32 hu, hword]) hdist hq0)
      · exact .inr (rne32_even hq heven)

end Sys2Proof.Machine
end

section
/-! The pressure conversion (00_scope.md R9, 41_linear_interpolator.md R92). -/

namespace Sys2Proof.Machine

/-- Settles O35: each equation is one of exact rationals. -/
theorem pressureConstants : Obligations.PressureConstants := by
  refine ⟨?_, ?_, rfl, rfl, ?_, ?_, ?_⟩ <;> norm_num [minCount, maxCount]

theorem pfc_of_values {a b : Binary32} {A B : Rat} (hA : val32 a = some A) (hB : val32 b = some B) (c : PressureCount) :
    pfc c a b = some (rne32 (pfcExact c.toNat A B)) := by
  simp only [pfc, hA, hB, roundOutput]

theorem pfcExact_eq (c A B : Rat) : pfcExact c A B = A + (5 * c - 8192) / 65536 * (B - A) := by
  rw [pfcExact, minCount, maxCount]
  ring

/-- The exact value is at most 9/8 of the range away from `A`, as the count has 14 bits (41_linear_interpolator.md R92). -/
theorem abs_pfcExact_le (c : PressureCount) (A B : Rat) : |pfcExact c.toNat A B| ≤ |A| + 9 / 8 * |B - A| := by
  have hc : (c.toNat : Rat) ≤ 16383 := by exact_mod_cast Nat.le_of_lt_succ c.isLt
  have hc0 : (0 : Rat) ≤ c.toNat := Nat.cast_nonneg _
  have hfactor : |(5 * (c.toNat : Rat) - 8192) / 65536| ≤ 9 / 8 := abs_le.2 ⟨by linarith, by linarith⟩
  calc |pfcExact c.toNat A B| = |A + (5 * (c.toNat : Rat) - 8192) / 65536 * (B - A)| := by rw [pfcExact_eq]
    _ ≤ |A| + |(5 * (c.toNat : Rat) - 8192) / 65536 * (B - A)| := abs_add_le _ _
    _ = |A| + |(5 * (c.toNat : Rat) - 8192) / 65536| * |B - A| := by rw [abs_mul]
    _ ≤ |A| + 9 / 8 * |B - A| := by gcongr

/-- Settles O41: `rne32` overflows from the midpoint on, and a bounded calibration keeps the exact value below it. -/
theorem pressureOverflow : Obligations.PressureOverflow := by
  intro c a b A B hA hB
  refine ⟨_, pfc_of_values hA hB c, rne32_of_overflow, rne32_of_negative_overflow, (isFinite_rne32_iff _).2, fun hbounded => ?_⟩
  rw [isFinite_rne32_iff]
  calc |pfcExact c.toNat A B| ≤ |A| + 9 / 8 * |B - A| := abs_pfcExact_le c A B
    _ < 34 * 10 ^ 37 := hbounded
    _ < 2 ^ 128 - 2 ^ 103 := by norm_num

end Sys2Proof.Machine
end

section
/-! What the state keeps: who writes a register, the parameters, the calibration's reach, and the reset state (10_state.md R20 to R31,
41_linear_interpolator.md R93, 42_readout.md R101, R105). -/

namespace Sys2Proof.Machine

theorem isDecodeWord_of_isNormalWord {cw : ControlWord} (hw : isNormalWord cw = true) : isDecodeWord cw = true := by
  rw [isNormalWord, Bool.and_eq_true] at hw
  exact hw.1

/-- Everything a completed step can have done, by what its control word asked for. -/
theorem step_cases {s t : State} (h : step s = .next t) :
    (isResetWord (sampledWord s) = true ∧ t = clearStatus (writeCounts 0#14 0#11 (takeEdge s))) ∨
    (isHoldWord (sampledWord s) = true ∧ t = takeEdge s) ∨
    (isNormalWord (sampledWord s) = true ∧
      t = writeCounts ((sampledWord s).extractLsb' 16 14) ((sampledWord s).extractLsb' 5 11)
        (recordStatus (framePort (sampledWord s)) (takeEdge s))) ∨
    (isDecodeWord (sampledWord s) = true ∧ isNormalWord (sampledWord s) = false ∧
      t = recordStatus (framePort (sampledWord s)) (takeEdge s)) := by
  obtain hw | hw | hw | ⟨hw, hn⟩ := word_cases (sampledWord s)
  · cases (step_of_reset hw).symm.trans h
    exact .inl ⟨hw, rfl⟩
  · cases (step_of_hold hw).symm.trans h
    exact .inr (.inl ⟨hw, rfl⟩)
  · cases (step_of_normal hw).symm.trans h
    exact .inr (.inr (.inl ⟨hw, rfl⟩))
  · cases (step_of_nonNormal hw hn).symm.trans h
    exact .inr (.inr (.inr ⟨hw, hn, rfl⟩))

/-! ### The registers and their writers -/

/-- Settles O18: RESET and DECODE.NORMAL may write every register, another DECODE the flags only, and HOLD none. -/
theorem onlyItsWritersChangeARegister : Obligations.OnlyItsWritersChangeARegister := by
  intro s t h
  obtain ⟨hw, rfl⟩ | ⟨-, rfl⟩ | ⟨hw, rfl⟩ | ⟨hw, -, rfl⟩ := step_cases h
  · exact ⟨fun _ => .inl hw, fun _ => .inl ⟨hw, rfl⟩, fun _ => .inl hw⟩
  · exact ⟨fun hne => absurd rfl hne, fun hne => absurd rfl hne, fun hne => hne.elim (absurd rfl) (absurd rfl)⟩
  · have hdecode := isDecodeWord_of_isNormalWord hw
    exact ⟨fun _ => .inr hdecode, fun _ => .inr ⟨hdecode, rfl⟩, fun _ => .inr hw⟩
  · exact ⟨fun _ => .inr hw, fun _ => .inr ⟨hw, rfl⟩, fun hne => hne.elim (absurd rfl) (absurd rfl)⟩

theorem step_status_of_reset {s t : State} (hw : isResetWord (sampledWord s) = true) (h : step s = .next t) :
    t.status = s.statusReset := by
  cases (step_of_reset hw).symm.trans h
  rfl

theorem step_status_of_decode {s t : State} (hw : isDecodeWord (sampledWord s) = true) (h : step s = .next t) :
    t.status = (sampledWord s).extractLsb' 30 2 := by
  rw [← statusField_framePort]
  cases hn : isNormalWord (sampledWord s) with
  | true =>
    cases (step_of_normal hn).symm.trans h
    rfl
  | false =>
    cases (step_of_nonNormal hw hn).symm.trans h
    rfl

theorem step_status_of_hold {s t : State} (hw : isHoldWord (sampledWord s) = true) (h : step s = .next t) :
    t.status = s.status := by
  cases (step_of_hold hw).symm.trans h
  rfl

/-! ### The parameters -/

/-- `t` has the three parameters of `s` (10_state.md R27, R31). -/
def State.hasParametersOf (t s : State) : Prop :=
  t.calMin = s.calMin ∧ t.calMax = s.calMax ∧ t.statusReset = s.statusReset

theorem step_keeps_parameters {s t u : State} (ht : t.hasParametersOf s) (h : step t = .next u) : u.hasParametersOf s := by
  obtain ⟨-, rfl⟩ | ⟨-, rfl⟩ | ⟨-, rfl⟩ | ⟨-, -, rfl⟩ := step_cases h
  all_goals exact ht

/-- Settles O31: every step keeps the parameters, and so does every run. -/
theorem parametersNeverChange : Obligations.ParametersNeverChange := fun k s t =>
  run_keeps (P := fun u => u.hasParametersOf s) (fun _ _ => step_keeps_parameters) k s t ⟨rfl, rfl, rfl⟩

/-! ### The last decoded frame -/

/-- A run over driven words, cut at the edge of one of them: the state before that edge, and the state after it, from which the rest
of the run goes on. -/
theorem run_cut_at (before after : List ControlWord) (cw : ControlWord) (s : State) :
    ∃ u v, run before.length (drive (before ++ cw :: after) s) = .next u ∧ sampledWord u = cw ∧
      step u = .next v ∧ v.inputs = after ∧
      run (before ++ cw :: after).length (drive (before ++ cw :: after) s) = run after.length v := by
  obtain ⟨u, hu, huin⟩ := run_words_next before (cw :: after) (drive (before ++ cw :: after) s) rfl
  obtain ⟨v, hv, hvin⟩ := step_next u
  refine ⟨u, v, hu, by rw [sampledWord, huin]; rfl, hv, by rw [hvin, huin]; rfl, ?_⟩
  rw [List.length_append, run_add _ hu, List.length_cons, run_succ _ hv]

theorem run_holds_keeps_status {holds : List ControlWord} (hholds : ∀ w ∈ holds, isHoldWord w = true)
    {s : State} (hs : s.inputs = holds) : ∃ t, run holds.length s = .next t ∧ t.status = s.status := by
  obtain ⟨t, ht, -, hstatus⟩ := run_words_keeps (P := fun u => u.status = s.status) [] holds s
    (fun u v hu hus huv => (step_status_of_hold (hholds _ hu) huv).trans hus) (by rw [hs, List.append_nil]) rfl
  exact ⟨t, ht, hstatus⟩

/-- Settles O28: the edge of `cw` sets `status`, from its code or from the parameter that the words before it kept, and the HOLDs
keep it. -/
theorem statusIsOfTheLastDecodedFrame : Obligations.StatusIsOfTheLastDecodedFrame := by
  intro before holds cw s hholds
  obtain ⟨u, v, hu, hcw, hv, hvin, hrun⟩ := run_cut_at before holds cw s
  obtain ⟨t, ht, hstatus⟩ := run_holds_keeps_status hholds hvin
  refine ⟨t, hrun.trans ht, fun hdecode => ?_, fun hreset => ?_⟩
  · calc t.status = v.status := hstatus
      _ = (sampledWord u).extractLsb' 30 2 := step_status_of_decode (hcw ▸ hdecode) hv
      _ = cw.extractLsb' 30 2 := by rw [hcw]
  · obtain ⟨-, -, hparameter⟩ := parametersNeverChange _ _ u hu
    calc t.status = v.status := hstatus
      _ = u.statusReset := step_status_of_reset (hcw ▸ hreset) hv
      _ = s.statusReset := hparameter

/-! ### The calibration -/

/-- The same machine with other words on the calibration ports (10_state.md R27). -/
def State.withCalibration (a b : Binary32) (s : State) : State := { s with calMin := a, calMax := b }

/-- A step reads no calibration word: it commutes with replacing them. -/
theorem step_withCalibration (a b : Binary32) {s t : State} (h : step s = .next t) :
    step (s.withCalibration a b) = .next (t.withCalibration a b) := by
  obtain ⟨hw, rfl⟩ | ⟨hw, rfl⟩ | ⟨hw, rfl⟩ | ⟨hw, hn, rfl⟩ := step_cases h
  · exact step_of_reset (s := s.withCalibration a b) hw
  · exact step_of_hold (s := s.withCalibration a b) hw
  · exact step_of_normal (s := s.withCalibration a b) hw
  · exact step_of_nonNormal (s := s.withCalibration a b) hw hn

theorem run_withCalibration (a b : Binary32) (k : Nat) {s t : State} (h : run k s = .next t) :
    run k (s.withCalibration a b) = .next (t.withCalibration a b) := by
  induction k generalizing s with
  | zero =>
    cases h
    rfl
  | succ k ih =>
    obtain ⟨u, hu, -⟩ := step_next s
    rw [run_succ k hu] at h
    rw [run_succ k (step_withCalibration a b hu), ih h]

/-- Of the output ports, `pressure` alone reads the calibration. -/
theorem outputs_withCalibration (a b : Binary32) (s : State) :
    outputs (s.withCalibration a b) = { outputs s with pressure := pressureOut (s.withCalibration a b) } := rfl

/-- Settles O32: runs commute with replacing the calibration, and the outputs then differ in `pressure` only. -/
theorem calibrationReachesOnlyPressure : Obligations.CalibrationReachesOnlyPressure := fun k a b _ t h =>
  ⟨run_withCalibration a b k h, _, outputs_withCalibration a b t⟩

/-! ### The reset state -/

theorem exec_reset (v : Bool) (f : Frame) (s : State) :
    exec (.reset v f) s = .next (clearStatus (writeCounts 0#14 0#11 s)) := rfl

/-- Settles O20: each register of `State.reset` holds the value RESET writes to it. -/
theorem resetStateHoldsResetValues : Obligations.ResetStateHoldsResetValues :=
  ⟨rfl, rfl, rfl, rfl, fun v f => exec_reset v f State.reset⟩

/-- Settles O24: the reset values are those the invariant asks for. -/
theorem resetStateIsQuiet : Obligations.ResetStateIsQuiet := by
  obtain ⟨hp, ht, -, hstatus, -⟩ := resetStateHoldsResetValues
  exact fun _ => ⟨hstatus, hp, ht⟩

end Sys2Proof.Machine
end

section
/-! The frame as bytes, and edges as a sequence (20_memory.md R42, R48). -/

namespace Sys2Proof.Machine

/-! ### The frame's bytes -/

theorem frameByte_getLsbD (frame : Frame) (k : Nat) {j : Nat} (hj : j < 8) :
    (frameByte frame k).getLsbD j = frame.getLsbD (24 - 8 * k + j) := by
  rw [frameByte, BitVec.getLsbD_extractLsb', decide_eq_true hj, Bool.true_and]

/-- Each byte is read past the bytes below it, 8 bits for each. -/
theorem frameByte_frameOfBytes (b0 b1 b2 b3 : Byte) :
    frameByte (frameOfBytes b0 b1 b2 b3) 0 = b0 ∧ frameByte (frameOfBytes b0 b1 b2 b3) 1 = b1 ∧
    frameByte (frameOfBytes b0 b1 b2 b3) 2 = b2 ∧ frameByte (frameOfBytes b0 b1 b2 b3) 3 = b3 := by
  refine ⟨?_, ?_, ?_, BitVec.extractLsb'_append_eq_right⟩
  · calc frameByte (frameOfBytes b0 b1 b2 b3) 0
      _ = (b0 ++ b1 ++ b2).extractLsb' 16 8 := BitVec.extractLsb'_append_eq_of_le (by decide)
      _ = (b0 ++ b1).extractLsb' 8 8 := BitVec.extractLsb'_append_eq_of_le (by decide)
      _ = b0 := BitVec.extractLsb'_append_eq_left
  · calc frameByte (frameOfBytes b0 b1 b2 b3) 1
      _ = (b0 ++ b1 ++ b2).extractLsb' 8 8 := BitVec.extractLsb'_append_eq_of_le (by decide)
      _ = (b0 ++ b1).extractLsb' 0 8 := BitVec.extractLsb'_append_eq_of_le (by decide)
      _ = b1 := BitVec.extractLsb'_append_eq_right
  · calc frameByte (frameOfBytes b0 b1 b2 b3) 2
      _ = (b0 ++ b1 ++ b2).extractLsb' 0 8 := BitVec.extractLsb'_append_eq_of_le (by decide)
      _ = b2 := BitVec.extractLsb'_append_eq_right

/-- Neighbouring bytes join to one longer field of the frame, until the field is the whole frame. -/
theorem frameOfBytes_frameByte (frame : Frame) :
    frameOfBytes (frameByte frame 0) (frameByte frame 1) (frameByte frame 2) (frameByte frame 3) = frame := by
  have h01 : frameByte frame 0 ++ frameByte frame 1 = frame.extractLsb' 16 16 :=
    BitVec.extractLsb'_append_extractLsb'_eq_extractLsb' rfl
  have h012 : frame.extractLsb' 16 16 ++ frameByte frame 2 = frame.extractLsb' 8 24 :=
    BitVec.extractLsb'_append_extractLsb'_eq_extractLsb' rfl
  have h0123 : frame.extractLsb' 8 24 ++ frameByte frame 3 = frame.extractLsb' 0 32 :=
    BitVec.extractLsb'_append_extractLsb'_eq_extractLsb' rfl
  rw [frameOfBytes, h01, h012, h0123, BitVec.extractLsb'_eq_self]

/-- Settles O4: a byte is a field of the port, and packing the bytes and reading them are inverse to each other. -/
theorem frameBytesArePackedBigEndian : Obligations.FrameBytesArePackedBigEndian :=
  ⟨fun frame k _ _ hj => frameByte_getLsbD frame k hj, frameByte_frameOfBytes, frameOfBytes_frameByte⟩

/-! ### Edges in sequence -/

/-- No operation reads or writes the words of later edges. -/
theorem exec_drive (later : List ControlWord) {i : Instr} {s t : State} (h : exec i s = .next t) :
    exec i (drive later s) = .next (drive later t) := by
  obtain ⟨⟨v, f, rfl⟩, he⟩ | ⟨⟨f, rfl⟩, he⟩ | ⟨f, rfl, he⟩ | ⟨f, rfl | rfl | rfl, he⟩ := exec_cases i s
  all_goals
    cases he.symm.trans h
    rfl

/-- The state an edge leaves is chosen before the later words are: it is one state, with any of them still to come. -/
theorem step_drive_cons (cw : ControlWord) (s : State) :
    ∃ t, ∀ later, step (drive (cw :: later) s) = .next (drive later t) := by
  obtain ⟨t, ht, -⟩ := step_next (drive [cw] s)
  exact ⟨t, fun later => exec_drive later ht⟩

theorem run_drive_append (words : List ControlWord) (s : State) :
    ∃ t, ∀ later, run words.length (drive (words ++ later) s) = .next (drive later t) := by
  induction words generalizing s with
  | nil => exact ⟨s, fun _ => rfl⟩
  | cons cw words ih =>
    obtain ⟨u, hu⟩ := step_drive_cons cw s
    obtain ⟨t, ht⟩ := ih u
    exact ⟨t, fun later => (run_succ _ (hu (words ++ later))).trans (ht later)⟩

/-- No output port shows a word that is still to come. -/
theorem outputs_drive (later : List ControlWord) (s : State) : outputs (drive later s) = outputs s := rfl

/-- Settles O30: runs add up, and the state after the words is one and the same but for the words still to come, which no output
shows. -/
theorem operationsAreSequential : Obligations.OperationsAreSequential := by
  refine ⟨fun _ n _ _ h => run_add n h, fun words later later' s => ?_⟩
  obtain ⟨t, ht⟩ := run_drive_append words s
  refine ⟨drive later t, drive later' t, ht later, drive_inputs later t, ht later', drive_inputs later' t, ?_⟩
  rw [outputs_drive, outputs_drive]

end Sys2Proof.Machine
end

section
/-! Decoding and encoding: a control word and its operation are two ways to write the same bits, and the table of masks tells the same
operations apart (30_encoding.md R55, R61, R62). -/

namespace Sys2Proof

/-! ### The decoder and the encoder -/

theorem exists_controlWord (cw : ControlWord) : ∃ rst frameValid frame, cw = controlWord rst frameValid frame :=
  ⟨_, _, _, (controlWord_parts cw).symm⟩

/-- A strobed frame selects the DECODE form of its own status code, and that form keeps every bit of it. -/
theorem decodeFrame_wellFormed_encode (frame : Frame) :
    (decodeFrame frame).wellFormed = true ∧ encode (decodeFrame frame) = controlWord false true frame := by
  obtain ⟨hcode, hd⟩ | ⟨hcode, hd⟩ | ⟨hcode, hd⟩ | ⟨hcode, hd⟩ := decodeFrame_cases frame
  all_goals
    rw [hd]
    exact ⟨beq_iff_eq.2 hcode, rfl⟩

theorem decode_encode {i : Instr} (h : i.wellFormed = true) : decode (encode i) = i := by
  cases i with
  | reset frameValid frame => exact decode_controlWord true frameValid frame
  | hold frame => exact decode_controlWord false false frame
  | decodeNormal frame | decodeCmd frame | decodeStale frame | decodeDiag frame =>
    have hcode := beq_iff_eq.1 h
    rw [encode, decode_controlWord]
    simp [decodeFrame, Machine.statusOfCode, hcode]

theorem decode_wellFormed_encode (cw : ControlWord) : (decode cw).wellFormed = true ∧ encode (decode cw) = cw := by
  obtain ⟨rst, frameValid, frame, rfl⟩ := exists_controlWord cw
  rw [decode_controlWord]
  cases rst with
  | true => exact ⟨rfl, rfl⟩
  | false =>
    cases frameValid with
    | false => exact ⟨rfl, rfl⟩
    | true => exact decodeFrame_wellFormed_encode frame

/-- Settles O1, by the three parts of a control word and, for a strobed frame, by its status code. -/
theorem decodeAndEncodeAgree : Obligations.DecodeAndEncodeAgree :=
  ⟨fun _ h => decode_encode h, decode_wellFormed_encode⟩

/-! ### The table of masks -/

/-- Each row asks for its own `rst`, `frame_valid` and status code, and one row asks for those of the word. -/
theorem filter_opcodeTable (cw : ControlWord) :
    opcodeTable.filter (fun row => row.selects cw) = [opcodeRow (decode cw)] := by
  obtain ⟨rst, frameValid, frame, rfl⟩ := exists_controlWord cw
  simp only [opcodeTable, List.filter_cons, List.filter_nil, selects_reset, selects_hold,
    selects_decode 0b00#2 (opcodeRow (.decodeNormal 0#32)) rfl rfl, selects_decode 0b01#2 (opcodeRow (.decodeCmd 0#32)) rfl rfl,
    selects_decode 0b10#2 (opcodeRow (.decodeStale 0#32)) rfl rfl, selects_decode 0b11#2 (opcodeRow (.decodeDiag 0#32)) rfl rfl,
    rstBit_controlWord, frameValidBit_controlWord, framePort_controlWord, decode_controlWord]
  cases rst with
  | true => rfl
  | false =>
    cases frameValid with
    | false => rfl
    | true =>
      obtain ⟨hcode, hd⟩ | ⟨hcode, hd⟩ | ⟨hcode, hd⟩ | ⟨hcode, hd⟩ := decodeFrame_cases frame
      all_goals
        rw [hcode, if_neg Bool.false_ne_true, if_pos rfl, hd]
        rfl

/-- Settles O2, from the masks row by row and the parts of the word that each row asks for. -/
theorem exactlyOneRowSelectsEachWord : Obligations.ExactlyOneRowSelectsEachWord :=
  ⟨rfl, filter_opcodeTable⟩

/-! ### Words of the spec, and words of the opcode table -/

/-- Settles O3, by running the decoder on the seven words. -/
theorem vectorWordsDecode : Obligations.VectorWordsDecode := by
  unfold Obligations.VectorWordsDecode
  decide

/-- A numbered word is read exactly when the number fits a control word (log 9). -/
theorem decodeTableWord_eq (nbits w : Nat) :
    decodeTableWord nbits w =
      if w % 2 ^ nbits < 2 ^ 34 then some (decode (BitVec.ofNat 34 (w % 2 ^ nbits))) else none := by
  rw [decodeTableWord, decodeNat]
  by_cases h : w % 2 ^ nbits < 2 ^ 34
  · rw [if_pos h, if_pos h]
  · rw [if_neg h, if_neg h]

/-- Settles O10: the word that is read is the word `withFetchWord` drives, and the step performs the driven word. -/
theorem tableWordRunsNext : Obligations.TableWordRunsNext := by
  refine ⟨fun nbits w i s h => ?_, fun nbits w => ?_⟩
  · rw [decodeTableWord_eq, Option.ite_none_right_eq_some, Option.some_inj] at h
    rw [Machine.withFetchWord_eq_drive, Machine.step_drive, h.2]
    rfl
  · rw [decodeTableWord_eq, ite_eq_right_iff, ← Nat.not_lt]
    simp only [reduceCtorEq, imp_false]

/-! ### The assembler -/

theorem controlWord_strobe (frame : Frame) : controlWord false true frame = 0b01#2 ++ frame := rfl

/-- The four bytes that a word expands to join to the word again. -/
theorem assembleOp_expandWord (w : Frame) : assembleOp (expandWord w) = 0b01#2 ++ w := by
  rw [expandWord, assembleOp, Machine.frameOfBytes_frameByte, controlWord_strobe]

theorem assembleOp_decode (b0 b1 b2 b3 : Byte) : assembleOp (.decode b0 b1 b2 b3) = 0b01#2 ++ b0 ++ b1 ++ b2 ++ b3 := by
  simp only [assembleOp, controlWord_strobe, Machine.frameOfBytes, BitVec.append_assoc, BitVec.cast_eq]

theorem strobe_append_frameOfFields (code : StatusCode) (p : PressureCount) (t : TemperatureCount) (u : BitVec 5) :
    0b01#2 ++ Machine.frameOfFields code p t u = 0b01#2 ++ code ++ p ++ t ++ u := by
  simp only [Machine.frameOfFields, BitVec.append_assoc, BitVec.cast_eq]

/-- Settles O8: every pseudo-operation is a DECODE of four bytes, and these bytes join to the word they were cut from. -/
theorem assemblerFollowsNotation : Obligations.AssemblerFollowsNotation := by
  refine ⟨rfl, rfl, rfl, assembleOp_decode, assembleOp_expandWord, fun p t => ?_, fun _ => rfl, by decide⟩
  simp only [assemble, expand, assembleOp_expandWord, strobe_append_frameOfFields, and_self]

end Sys2Proof
end

section
/-! The fields of a frame: what they are made of, what the source's formulas read, and which bits no step reads (20_memory.md R46,
30_encoding.md R56 to R60). -/

namespace Sys2Proof.Machine

/-! ### The four fields -/

/-- A field of a field is a field of the whole. -/
theorem extractLsb'_of_extractLsb' {w : Nat} (x : BitVec w) {start len start' len' : Nat} (h : start' + len' ≤ len) :
    (x.extractLsb' start len).extractLsb' start' len' = x.extractLsb' (start + start') len' := by
  apply BitVec.eq_of_getLsbD_eq
  intro i hi
  have hlen : start' + i < len := by omega
  simp only [BitVec.getLsbD_extractLsb', hi, hlen, decide_true, Bool.true_and, Nat.add_assoc]

theorem frameOfFields_fields (frame : Frame) :
    frameOfFields (statusField frame) (pcountField frame) (tcountField frame) (unusedField frame) = frame := by
  have hcounts : statusField frame ++ pcountField frame = frame.extractLsb' 16 16 :=
    BitVec.extractLsb'_append_extractLsb'_eq_extractLsb' rfl
  have htemperature : frame.extractLsb' 16 16 ++ tcountField frame = frame.extractLsb' 5 27 :=
    BitVec.extractLsb'_append_extractLsb'_eq_extractLsb' rfl
  have hunused : frame.extractLsb' 5 27 ++ unusedField frame = frame.extractLsb' 0 32 :=
    BitVec.extractLsb'_append_extractLsb'_eq_extractLsb' rfl
  rw [frameOfFields, hcounts, htemperature, hunused, BitVec.extractLsb'_eq_self]

theorem fields_frameOfFields (code : StatusCode) (p : PressureCount) (t : TemperatureCount) (u : BitVec 5) :
    statusField (frameOfFields code p t u) = code ∧ pcountField (frameOfFields code p t u) = p ∧
    tcountField (frameOfFields code p t u) = t ∧ unusedField (frameOfFields code p t u) = u := by
  refine ⟨?_, ?_, ?_, BitVec.extractLsb'_append_eq_right⟩
  · calc statusField (frameOfFields code p t u)
      _ = (code ++ p ++ t).extractLsb' 25 2 := BitVec.extractLsb'_append_eq_of_le (by decide)
      _ = (code ++ p).extractLsb' 14 2 := BitVec.extractLsb'_append_eq_of_le (by decide)
      _ = code := BitVec.extractLsb'_append_eq_left
  · calc pcountField (frameOfFields code p t u)
      _ = (code ++ p ++ t).extractLsb' 11 14 := BitVec.extractLsb'_append_eq_of_le (by decide)
      _ = (code ++ p).extractLsb' 0 14 := BitVec.extractLsb'_append_eq_of_le (by decide)
      _ = p := BitVec.extractLsb'_append_eq_right
  · calc tcountField (frameOfFields code p t u)
      _ = (code ++ p ++ t).extractLsb' 0 11 := BitVec.extractLsb'_append_eq_of_le (by decide)
      _ = t := BitVec.extractLsb'_append_eq_right

/-- Settles O5: neighbouring fields join to the frame, and each field is read past the fields below it. -/
theorem fourFieldsMakeTheFrame : Obligations.FourFieldsMakeTheFrame :=
  ⟨frameOfFields_fields, fields_frameOfFields⟩

/-! ### The fields by bytes -/

theorem statusField_eq_byte (frame : Frame) : statusField frame = (frameByte frame 0).extractLsb' 6 2 :=
  (extractLsb'_of_extractLsb' frame (start := 24) (start' := 6) (by decide : 6 + 2 ≤ 8)).symm

/-- The pressure field is `{byte0[5:0], byte1[7:0]}` (30_encoding.md R58). -/
theorem pcountField_eq_bytes (frame : Frame) :
    pcountField frame = (frameByte frame 0).extractLsb' 0 6 ++ frameByte frame 1 := by
  have hhigh : (frameByte frame 0).extractLsb' 0 6 = frame.extractLsb' 24 6 :=
    extractLsb'_of_extractLsb' frame (by decide)
  have hjoin : frame.extractLsb' 24 6 ++ frameByte frame 1 = frame.extractLsb' 16 14 :=
    BitVec.extractLsb'_append_extractLsb'_eq_extractLsb' rfl
  rw [hhigh, hjoin, pcountField]

/-- The temperature field is `{byte2[7:0], byte3[7:5]}` (30_encoding.md R59). -/
theorem tcountField_eq_bytes (frame : Frame) :
    tcountField frame = frameByte frame 2 ++ (frameByte frame 3).extractLsb' 5 3 := by
  have hlow : (frameByte frame 3).extractLsb' 5 3 = frame.extractLsb' 5 3 :=
    extractLsb'_of_extractLsb' frame (by decide)
  have hjoin : frameByte frame 2 ++ frame.extractLsb' 5 3 = frame.extractLsb' 5 11 :=
    BitVec.extractLsb'_append_extractLsb'_eq_extractLsb' rfl
  rw [hlow, hjoin, tcountField]

theorem statusField_toNat (frame : Frame) : (statusField frame).toNat = ((frameByte frame 0).toNat >>> 6) &&& 0b11 := by
  rw [statusField_eq_byte, BitVec.extractLsb'_toNat]
  exact (Nat.and_two_pow_sub_one_eq_mod _ 2).symm

theorem pcountField_toNat (frame : Frame) :
    (pcountField frame).toNat = (((frameByte frame 0).toNat &&& 0x3F) <<< 8) ||| (frameByte frame 1).toNat := by
  rw [pcountField_eq_bytes, BitVec.toNat_append, BitVec.extractLsb'_toNat, Nat.shiftRight_zero,
    ← Nat.and_two_pow_sub_one_eq_mod]

/-- Three bits of a byte are left above bit 4. -/
theorem toNat_shiftRight_lt (b : Byte) : b.toNat >>> 5 < 2 ^ 3 := by
  rw [Nat.shiftRight_eq_div_pow]
  have hb := b.isLt
  omega

theorem tcountField_toNat (frame : Frame) :
    (tcountField frame).toNat = ((frameByte frame 2).toNat <<< 3) ||| ((frameByte frame 3).toNat >>> 5) := by
  rw [tcountField_eq_bytes, BitVec.toNat_append, BitVec.extractLsb'_toNat, Nat.mod_eq_of_lt (toNat_shiftRight_lt _)]

/-! ### The source's masks on bytes -/

/-- Masking after the shift is masking before it. -/
theorem shiftLeft_and_0x3F00 (b : Nat) : (b <<< 8) &&& 0x3F00 = (b &&& 0x3F) <<< 8 :=
  (Nat.shiftLeft_and_distrib (a := b) (b := 0x3F)).symm

theorem toNat_and_0xFF (b : Byte) : b.toNat &&& 0xFF = b.toNat := Nat.and_two_pow_sub_one_of_lt_two_pow b.isLt

/-- The mask `0x7F8` cuts nothing off a shifted byte. -/
theorem toNat_shiftLeft_and_0x7F8 (b : Byte) : (b.toNat <<< 3) &&& 0x7F8 = b.toNat <<< 3 :=
  Nat.shiftLeft_and_distrib.symm.trans (congrArg (· <<< 3) (toNat_and_0xFF b))

theorem toNat_shiftRight_and_0x7 (b : Byte) : (b.toNat >>> 5) &&& 0x7 = b.toNat >>> 5 :=
  Nat.and_two_pow_sub_one_of_lt_two_pow (toNat_shiftRight_lt b)

/-- Settles O6: each field is two neighbouring parts of bytes, which is the shorter formula; the longer one masks what is cut off or
already 0. -/
theorem countFieldsFollowSourceFormulas : Obligations.CountFieldsFollowSourceFormulas := by
  intro frame b hb
  simp only [hb, shiftLeft_and_0x3F00, toNat_and_0xFF, toNat_shiftLeft_and_0x7F8, toNat_shiftRight_and_0x7]
  have hp := pcountField_toNat frame
  have ht := tcountField_toNat frame
  exact ⟨rfl, hp, hp, rfl, ht, ht⟩

/-! ### The status code -/

theorem statusOfCode_eq_normal_iff (code : StatusCode) : statusOfCode code = .normal ↔ code = 0b00#2 := by
  revert code
  decide

theorem isNormalWord_iff {cw : ControlWord} (hw : isDecodeWord cw = true) :
    isNormalWord cw = true ↔ statusOfCode (cw.extractLsb' 30 2) = .normal := by
  rw [isNormalWord, hw, Bool.true_and, beq_iff_eq, statusOfCode_eq_normal_iff]

/-- Settles O7: a DECODE writes the counts exactly when its word is a Normal one. -/
theorem statusCodeIsTotalMap : Obligations.StatusCodeIsTotalMap := by
  refine ⟨fun frame => ⟨rfl, statusField_toNat frame⟩, by decide, fun x => by cases x <;> rfl,
    fun cw rest s t hw h => ⟨fun hnormal => ?_, fun hother => ?_⟩⟩
  · exact step_counts_of_normal (s := drive (cw :: rest) s) ((isNormalWord_iff hw).2 hnormal) h
  · rw [Ne, ← isNormalWord_iff hw, Bool.not_eq_true] at hother
    have hreset : isResetWord cw = false := by
      rw [isDecodeWord_eq, Bool.and_eq_true, Bool.not_eq_true'] at hw
      exact hw.1
    exact step_keeps_counts (s := drive (cw :: rest) s) hreset hother ⟨rfl, rfl⟩ h

/-! ### Ignored bits -/

theorem sampledWord_drive_cons (cw : ControlWord) (rest : List ControlWord) (s : State) :
    sampledWord (drive (cw :: rest) s) = cw := rfl

/-- Once its edge has been taken, a control word is gone. -/
theorem takeEdge_drive_cons (cw : ControlWord) (rest : List ControlWord) (s : State) :
    takeEdge (drive (cw :: rest) s) = drive rest { s with edge := s.edge + 1 } := rfl

theorem getLsbD_of_shiftRight_eq {cw cw' : ControlWord} (h : cw >>> 5 = cw' >>> 5) {i : Nat} (hi : 5 ≤ i) :
    cw.getLsbD i = cw'.getLsbD i := by
  have hbit := congrArg (BitVec.getLsbD · (i - 5)) h
  simpa only [BitVec.getLsbD_ushiftRight, Nat.add_sub_cancel' hi] using hbit

theorem extractLsb'_of_shiftRight_eq {cw cw' : ControlWord} (h : cw >>> 5 = cw' >>> 5) {start : Nat} (hstart : 5 ≤ start)
    (len : Nat) : cw.extractLsb' start len = cw'.extractLsb' start len := by
  apply BitVec.eq_of_getLsbD_eq
  intro i _
  rw [BitVec.getLsbD_extractLsb', BitVec.getLsbD_extractLsb', getLsbD_of_shiftRight_eq h (Nat.le_add_right_of_le hstart)]

/-- The status code is all that a DECODE records of its frame beside the counts. -/
theorem recordStatus_framePort_congr {cw cw' : ControlWord} (h : cw.extractLsb' 30 2 = cw'.extractLsb' 30 2) (s : State) :
    recordStatus (framePort cw) s = recordStatus (framePort cw') s := by
  simp only [recordStatus, statusField_framePort, h]

section
variable {cw cw' : ControlWord} {rest : List ControlWord} {s : State}

theorem step_eq_of_resets (hw : isResetWord cw = true) (hw' : isResetWord cw' = true) :
    step (drive (cw :: rest) s) = step (drive (cw' :: rest) s) :=
  (step_of_reset (s := drive (cw :: rest) s) hw).trans (step_of_reset (s := drive (cw' :: rest) s) hw').symm

theorem step_eq_of_holds (hw : isHoldWord cw = true) (hw' : isHoldWord cw' = true) :
    step (drive (cw :: rest) s) = step (drive (cw' :: rest) s) :=
  (step_of_hold (s := drive (cw :: rest) s) hw).trans (step_of_hold (s := drive (cw' :: rest) s) hw').symm

theorem step_eq_of_normals (hw : isNormalWord cw = true) (hw' : isNormalWord cw' = true)
    (hfields : ∀ start len, 5 ≤ start → cw.extractLsb' start len = cw'.extractLsb' start len) :
    step (drive (cw :: rest) s) = step (drive (cw' :: rest) s) := by
  rw [step_of_normal (s := drive (cw :: rest) s) hw, step_of_normal (s := drive (cw' :: rest) s) hw']
  rw [sampledWord_drive_cons, sampledWord_drive_cons, takeEdge_drive_cons, takeEdge_drive_cons,
    recordStatus_framePort_congr (hfields 30 2 (by decide)), hfields 16 14 (by decide), hfields 5 11 (by decide)]

theorem step_eq_of_nonNormals (hw : isDecodeWord cw = true) (hn : isNormalWord cw = false)
    (hw' : isDecodeWord cw' = true) (hn' : isNormalWord cw' = false)
    (hcode : cw.extractLsb' 30 2 = cw'.extractLsb' 30 2) :
    step (drive (cw :: rest) s) = step (drive (cw' :: rest) s) := by
  rw [step_of_nonNormal (s := drive (cw :: rest) s) hw hn, step_of_nonNormal (s := drive (cw' :: rest) s) hw' hn']
  rw [sampledWord_drive_cons, sampledWord_drive_cons, takeEdge_drive_cons, takeEdge_drive_cons,
    recordStatus_framePort_congr hcode]

/-- No operation reads the five unused bits: they choose neither the kind of the word nor a field of it. -/
theorem step_eq_of_shiftRight_eq (h : cw >>> 5 = cw' >>> 5) : step (drive (cw :: rest) s) = step (drive (cw' :: rest) s) := by
  have hrst : cw.getLsbD 33 = cw'.getLsbD 33 := getLsbD_of_shiftRight_eq h (by decide)
  have hvalid : cw.getLsbD 32 = cw'.getLsbD 32 := getLsbD_of_shiftRight_eq h (by decide)
  have hcode := extractLsb'_of_shiftRight_eq h (start := 30) (by decide) 2
  have hreset : isResetWord cw = isResetWord cw' := hrst
  have hhold : isHoldWord cw = isHoldWord cw' := by rw [isHoldWord, isHoldWord, hrst, hvalid]
  have hdecode : isDecodeWord cw = isDecodeWord cw' := by rw [isDecodeWord, isDecodeWord, hrst, hvalid]
  have hnormal : isNormalWord cw = isNormalWord cw' := by rw [isNormalWord, isNormalWord, hdecode, hcode]
  obtain hw | hw | hw | ⟨hw, hn⟩ := word_cases cw
  · exact step_eq_of_resets hw (hreset ▸ hw)
  · exact step_eq_of_holds hw (hhold ▸ hw)
  · exact step_eq_of_normals hw (hnormal ▸ hw) fun _ len hstart => extractLsb'_of_shiftRight_eq h hstart len
  · exact step_eq_of_nonNormals hw hn (hdecode ▸ hw) (hnormal ▸ hn) hcode

end

theorem isNormalWord_of_code_ne {cw : ControlWord} (hcode : cw.extractLsb' 30 2 ≠ 0b00#2) : isNormalWord cw = false := by
  rw [isNormalWord, beq_eq_false_iff_ne.2 hcode, Bool.and_false]

/-- Settles O17, one family of ignored bits after another: two words of one kind, with equal values in what the kind reads, have one
step. -/
theorem ignoredBitsHaveNoEffect : Obligations.IgnoredBitsHaveNoEffect := by
  rintro cw cw' rest s (h | ⟨hw, hw'⟩ | ⟨hw, hw'⟩ | ⟨hw, hw', hcode, heq⟩)
  · exact step_eq_of_shiftRight_eq h
  · exact step_eq_of_resets hw hw'
  · exact step_eq_of_holds hw hw'
  · exact step_eq_of_nonNormals hw (isNormalWord_of_code_ne hcode) hw' (isNormalWord_of_code_ne (heq ▸ hcode)) heq

end Sys2Proof.Machine
end

section
/-! What each operation leaves (40_frame_decoder.md R70 to R78): as an operation, and at the edge that samples its word. -/

namespace Sys2Proof.Machine

/-! ### Words by the masks of their rows -/

theorem isResetWord_of_mask {cw : ControlWord} (h : cw &&& 0x200000000#34 = 0x200000000#34) : isResetWord cw = true :=
  (selects_reset false 0#32 cw).symm.trans (beq_iff_eq.2 h)

theorem isHoldWord_of_mask {cw : ControlWord} (h : cw &&& 0x300000000#34 = 0x000000000#34) : isHoldWord cw = true :=
  (selects_hold 0#32 cw).symm.trans (beq_iff_eq.2 h)

theorem isDecodeWord_of_mask {c : StatusCode} {cw : ControlWord} (h : cw &&& 0x3C0000000#34 = 0b01#2 ++ c ++ 0#30) :
    isDecodeWord cw = true ∧ cw.extractLsb' 30 2 = c := by
  obtain ⟨hr, hv, hcode⟩ := (decodeMask_iff c cw).1 h
  rw [statusField_framePort] at hcode
  exact ⟨by rw [isDecodeWord_eq, hr, hv]; rfl, hcode⟩

/-! ### What an edge leaves, for each kind of driven word -/

theorem recordStatus_of_code {frame : Frame} {c : StatusCode} (h : statusField frame = c) (s : State) :
    recordStatus frame s = { s with status := c, statusValid := true } := by
  rw [recordStatus, h]

section
variable {cw : ControlWord} (rest : List ControlWord) (s : State)

theorem step_drive_reset (hw : isResetWord cw = true) :
    step (drive (cw :: rest) s) =
      .next { s with pressureCount := 0#14, temperatureCount := 0#11, status := s.statusReset, statusValid := false,
                     inputs := rest, edge := s.edge + 1 } :=
  step_of_reset (s := drive (cw :: rest) s) hw

theorem step_drive_hold (hw : isHoldWord cw = true) :
    step (drive (cw :: rest) s) = .next { s with inputs := rest, edge := s.edge + 1 } :=
  step_of_hold (s := drive (cw :: rest) s) hw

theorem step_drive_normal (hw : isDecodeWord cw = true) (hcode : cw.extractLsb' 30 2 = 0b00#2) :
    step (drive (cw :: rest) s) =
      .next { s with status := 0b00#2, statusValid := true, pressureCount := cw.extractLsb' 16 14,
                     temperatureCount := cw.extractLsb' 5 11, inputs := rest, edge := s.edge + 1 } := by
  have hn : isNormalWord cw = true := by rw [isNormalWord, hw, hcode]; rfl
  rw [step_of_normal (s := drive (cw :: rest) s) hn, sampledWord_drive_cons, takeEdge_drive_cons,
    recordStatus_of_code ((statusField_framePort cw).trans hcode)]
  rfl

theorem step_drive_nonNormal {c : StatusCode} (hw : isDecodeWord cw = true) (hcode : cw.extractLsb' 30 2 = c)
    (hc : c ≠ 0b00#2) :
    step (drive (cw :: rest) s) =
      .next { s with status := c, statusValid := true, inputs := rest, edge := s.edge + 1 } := by
  have hn : isNormalWord cw = false := isNormalWord_of_code_ne (hcode ▸ hc)
  rw [step_of_nonNormal (s := drive (cw :: rest) s) hw hn, sampledWord_drive_cons, takeEdge_drive_cons,
    recordStatus_of_code ((statusField_framePort cw).trans hcode)]
  rfl

end

/-! ### The step as a whole -/

theorem code_eq_three {c : StatusCode} (h0 : c ≠ 0b00#2) (h1 : c ≠ 0b01#2) (h2 : c ≠ 0b10#2) : c = 0b11#2 := by
  revert c
  decide

/-- Settles O11: each branch of the pseudocode is one kind of control word, and the code that is left over is 3. -/
theorem stepFollowsPseudocode : Obligations.StepFollowsPseudocode := by
  intro cw rest s
  by_cases hr : cw.getLsbD 33 = true
  · rw [if_pos hr]
    exact step_drive_reset rest s hr
  by_cases hv : cw.getLsbD 32 = false
  · have hw : isHoldWord cw = true := by rw [isHoldWord, Bool.eq_false_of_not_eq_true hr, hv]; rfl
    rw [if_neg hr, if_pos hv]
    exact step_drive_hold rest s hw
  have hw : isDecodeWord cw = true := by
    rw [isDecodeWord, Bool.eq_false_of_not_eq_true hr, Bool.eq_true_of_not_eq_false hv]
    rfl
  rw [if_neg hr, if_neg hv]
  split_ifs with h0 h1 h2
  · exact step_drive_normal rest s hw h0
  · exact step_drive_nonNormal rest s hw h1 (by decide)
  · exact step_drive_nonNormal rest s hw h2 (by decide)
  · exact step_drive_nonNormal rest s hw (code_eq_three h0 h1 h2) (by decide)

/-- Settles O9: the sampled word decodes to the operation it encodes, and the idle word to HOLD. -/
theorem stepRunsTheDecodedOperation : Obligations.StepRunsTheDecodedOperation := by
  refine ⟨fun s i rest hi hs => ?_, fun s hs => ?_⟩
  · have hword : sampledWord s = encode i := by rw [sampledWord, hs]; rfl
    rw [step_eq, hword, decode_encode hi, takeEdge, hs]
    rfl
  · have hword : sampledWord s = idleWord := by rw [sampledWord, hs]; rfl
    have hidle : decode idleWord = .hold 0#32 := by decide
    rw [step_eq, hword, hidle, takeEdge, hs]
    rfl

/-! ### RESET and HOLD -/

/-- Settles O12: RESET writes values that depend on the parameter alone, so a second one finds nothing to change. -/
theorem resetResult : Obligations.ResetResult := by
  refine ⟨exec_reset, fun cw rest s h => step_drive_reset rest s (isResetWord_of_mask h), fun v v' f f' s t h => ?_⟩
  cases (exec_reset v f s).symm.trans h
  rfl

theorem pfc_of_legal {s : State} (h : s.calibrationLegal = true) :
    ∃ w, pfc s.pressureCount s.calMin s.calMax = some w := by
  rw [State.calibrationLegal, Bool.and_eq_true] at h
  exact ⟨_, pfc_of_values (val32_of_finite h.1) (val32_of_finite h.2) _⟩

/-- Under a legal calibration no output shows the number of the edge (41_linear_interpolator.md R93). -/
theorem outputs_takeEdge {s : State} (h : s.calibrationLegal = true) : outputs (takeEdge s) = outputs s := by
  obtain ⟨w, hw⟩ := pfc_of_legal h
  have hpressure : pressureOut (takeEdge s) = pressureOut s := by
    rw [pressureOut, pressureOut, takeEdge_pressureCount, takeEdge_calMin, takeEdge_calMax, hw]
    rfl
  rw [outputs, hpressure]
  rfl

/-- Settles O13: a HOLD is no more than an edge taken, which keeps the calibration legal and, with it, every output. -/
theorem holdResult : Obligations.HoldResult := by
  refine ⟨fun _ _ => rfl, fun cw rest s h => step_drive_hold rest s (isHoldWord_of_mask h), fun words rest s hholds hlegal => ?_⟩
  have hstep : ∀ u v, sampledWord u ∈ words → u.calibrationLegal = true ∧ outputs u = outputs s → step u = .next v →
      v.calibrationLegal = true ∧ outputs v = outputs s := by
    rintro u v hu ⟨hlegal, hout⟩ huv
    cases (step_of_hold (hholds _ hu)).symm.trans huv
    exact ⟨hlegal, (outputs_takeEdge hlegal).trans hout⟩
  obtain ⟨t, ht, -, -, hout⟩ := run_words_keeps rest words (drive (words ++ rest) s) hstep rfl ⟨hlegal, outputs_drive _ s⟩
  exact ⟨t, ht, hout⟩

/-! ### The DECODE forms -/

/-- Settles O14: a well-formed DECODE.NORMAL records the code 0 and both counts, and its row asks for a strobe with that code. -/
theorem decodeNormalResult : Obligations.DecodeNormalResult := by
  refine ⟨fun frame s hwf => ?_, fun cw rest s h => ?_⟩
  · rw [exec, execDecodeNormal, recordStatus_of_code (beq_iff_eq.1 hwf)]
    rfl
  · obtain ⟨hw, hcode⟩ := isDecodeWord_of_mask (c := 0b00#2) h
    exact step_drive_normal rest s hw hcode

/-- At an edge that samples a word of a non-Normal row, the code of the row is recorded and the counts are kept. -/
theorem step_drive_of_nonNormal_mask {c : StatusCode} {cw : ControlWord} (rest : List ControlWord) (s : State)
    (hc : c ≠ 0b00#2) (h : cw &&& 0x3C0000000#34 = 0b01#2 ++ c ++ 0#30) :
    step (drive (cw :: rest) s) =
      .next { s with status := c, statusValid := true, inputs := rest, edge := s.edge + 1 } := by
  obtain ⟨hw, hcode⟩ := isDecodeWord_of_mask h
  exact step_drive_nonNormal rest s hw hcode hc

/-- Settles O15: the three forms record the code of their own frame and do nothing else. -/
theorem nonNormalDecodeResults : Obligations.NonNormalDecodeResults := by
  refine ⟨fun _ s hwf => ?_, fun _ s hwf => ?_, fun _ s hwf => ?_, fun _ rest s => ⟨?_, ?_, ?_⟩⟩
  · exact congrArg Host.Outcome.next (recordStatus_of_code (beq_iff_eq.1 hwf) s)
  · exact congrArg Host.Outcome.next (recordStatus_of_code (beq_iff_eq.1 hwf) s)
  · exact congrArg Host.Outcome.next (recordStatus_of_code (beq_iff_eq.1 hwf) s)
  · exact step_drive_of_nonNormal_mask (c := 0b01#2) rest s (by decide)
  · exact step_drive_of_nonNormal_mask (c := 0b10#2) rest s (by decide)
  · exact step_drive_of_nonNormal_mask (c := 0b11#2) rest s (by decide)

theorem step_statusValid_of_decode {s t : State} (hw : isDecodeWord (sampledWord s) = true) (h : step s = .next t) :
    t.statusValid = true := by
  cases hn : isNormalWord (sampledWord s) with
  | true =>
    cases (step_of_normal hn).symm.trans h
    rfl
  | false =>
    cases (step_of_nonNormal hw hn).symm.trans h
    rfl

/-- Settles O16: Normal or not, a DECODE records the code, which is the two high bits of byte 0. -/
theorem everyDecodeRecordsItsStatus : Obligations.EveryDecodeRecordsItsStatus := by
  intro cw rest s hw
  obtain ⟨t, ht, -⟩ := step_next (drive (cw :: rest) s)
  have hstatus : (outputs t).status = cw.extractLsb' 30 2 := step_status_of_decode (s := drive (cw :: rest) s) hw ht
  have hvalid : (outputs t).statusValid = true := step_statusValid_of_decode (s := drive (cw :: rest) s) hw ht
  refine ⟨t, ht, hstatus, hvalid, ?_, ?_⟩
  · rw [reportedStatus, if_pos hvalid, hstatus]
  · rw [hstatus, ← statusField_framePort]
    exact statusField_toNat (framePort cw)

end Sys2Proof.Machine
end

section
/-! `rne32` keeps the order of the extended reals, and where its words are normal; from this, what the two conversions of
41_linear_interpolator.md give (R85 to R98). -/

namespace Sys2Proof.Machine

/-! ### The order `rne32` keeps -/

theorem nearestMagnitude_congr {q r : Rat} (h : |q| = |r|) : nearestMagnitude q = nearestMagnitude r := by
  rcases abs_eq_abs.1 h with rfl | rfl
  · rfl
  · rw [nearestMagnitude, nearestMagnitude, Rat.neg_num, Rat.neg_den, Int.natAbs_neg]

/-- If the smaller magnitude had the larger word, both would lie on the midpoint of the two words, and be equal. -/
theorem nearestMagnitude_mono {q r : Rat} (h : |q| ≤ |r|) : nearestMagnitude q ≤ nearestMagnitude r := by
  by_contra hlt
  have hwords := magnitudeAt_strictMono (not_le.1 hlt)
  have hq := sq_le_sq.2 (nearestMagnitude_le q (nearestMagnitude r))
  have hr := sq_le_sq.2 (nearestMagnitude_le r (nearestMagnitude q))
  have hq_above : magnitudeAt (nearestMagnitude r) + magnitudeAt (nearestMagnitude q) ≤ 2 * |q| := by nlinarith
  have hr_below : 2 * |r| ≤ magnitudeAt (nearestMagnitude r) + magnitudeAt (nearestMagnitude q) := by nlinarith
  exact hlt (nearestMagnitude_congr (by linarith)).le

theorem orderPlace_rne32 (q : Rat) :
    orderPlace (rne32 q) =
      if q < 0 then -((min (nearestMagnitude q) 0x7F800000 : Nat) : Int) else ((min (nearestMagnitude q) 0x7F800000 : Nat) : Int) := by
  simp only [orderPlace, rne32_sign, rne32_low_bits, decide_eq_true_eq]

theorem orderPlace_rne32_mono {q r : Rat} (h : q ≤ r) : orderPlace (rne32 q) ≤ orderPlace (rne32 r) := by
  rw [orderPlace_rne32, orderPlace_rne32]
  rcases lt_or_ge r 0 with hr | hr
  · have hmagnitude : nearestMagnitude r ≤ nearestMagnitude q :=
      nearestMagnitude_mono (by rw [abs_of_neg hr, abs_of_neg (h.trans_lt hr)]; linarith)
    rw [if_pos hr, if_pos (h.trans_lt hr)]
    omega
  · rcases lt_or_ge q 0 with hq | hq
    · rw [if_neg (not_lt.2 hr), if_pos hq]
      omega
    · have hmagnitude : nearestMagnitude q ≤ nearestMagnitude r :=
        nearestMagnitude_mono (by rwa [abs_of_nonneg hq, abs_of_nonneg hr])
      rw [if_neg (not_lt.2 hr), if_neg (not_lt.2 hq)]
      omega

theorem magnitudeAt_smallestNormal : magnitudeAt 0x00800000 = 1 / 2 ^ 126 := by norm_num [magnitudeAt, unitsAt]

/-- From the smallest normal value 2^-126 on, the exponent field is not zero. -/
theorem exponentField_rne32_ne_zero {q : Rat} (h : 1 / 2 ^ 126 ≤ |q|) : exponentField (rne32 q) ≠ 0#8 := by
  have hsmallest : |(1 / 2 ^ 126 : Rat)| = 1 / 2 ^ 126 := abs_of_pos (by positivity)
  have hmagnitude : 0x00800000 ≤ nearestMagnitude q :=
    calc 0x00800000 = nearestMagnitude (1 / 2 ^ 126) :=
          (nearestMagnitude_eq (hsmallest.trans magnitudeAt_smallestNormal.symm)).symm
      _ ≤ nearestMagnitude q := nearestMagnitude_mono (hsmallest.trans_le h)
  intro hfield
  have hzero := exponentField_toNat (rne32 q)
  rw [hfield, rne32_low_bits, BitVec.toNat_ofNat] at hzero
  omega

theorem val32_ne_zero_of_exponentField {w : Binary32} {v : Rat} (hv : val32 w = some v) (h : exponentField w ≠ 0#8) : v ≠ 0 := by
  rintro rfl
  have hunits : magnitudeAt 0 = magnitudeAt (w.toNat % 2 ^ 31) := by
    rw [← abs_val32 hv]
    simp [magnitudeAt, unitsAt]
  refine h (BitVec.eq_of_toNat_eq ?_)
  rw [exponentField_toNat, ← magnitudeAt_strictMono.injective hunits]
  rfl

/-! ### The pressure conversion -/

theorem pfcExact_sub (c d A B : Rat) : pfcExact d A B - pfcExact c A B = 5 * (d - c) / 65536 * (B - A) := by
  rw [pfcExact_eq, pfcExact_eq]
  ring

theorem pfcExact_mono {c d A B : Rat} (hAB : A ≤ B) (hcd : c ≤ d) : pfcExact c A B ≤ pfcExact d A B := by
  have hstep : 0 ≤ 5 * (d - c) / 65536 * (B - A) := mul_nonneg (by linarith) (by linarith)
  linarith [pfcExact_sub c d A B]

theorem pfcExact_anti {c d A B : Rat} (hBA : B ≤ A) (hcd : c ≤ d) : pfcExact d A B ≤ pfcExact c A B := by
  have hstep : 5 * (d - c) / 65536 * (B - A) ≤ 0 := mul_nonpos_of_nonneg_of_nonpos (by linarith) (by linarith)
  linarith [pfcExact_sub c d A B]

/-- Settles O40: the exact value is monotone in the count, and the rounding keeps the order. -/
theorem pressureIsMonotoneInTheCount : Obligations.PressureIsMonotoneInTheCount := by
  intro a b A B c d hA hB hcd
  have hcounts : (c.toNat : Rat) ≤ d.toNat := Nat.cast_le.2 hcd
  exact ⟨_, _, pfc_of_values hA hB c, pfc_of_values hA hB d,
    fun hAB => orderPlace_rne32_mono (pfcExact_mono hAB hcounts), fun hBA => orderPlace_rne32_mono (pfcExact_anti hBA hcounts)⟩

theorem pfcExact_strictAnti {c d A B : Rat} (hBA : B < A) (hcd : c < d) : pfcExact d A B < pfcExact c A B := by
  have hstep : 5 * (d - c) / 65536 * (B - A) < 0 := mul_neg_of_pos_of_neg (by linarith) (by linarith)
  linarith [pfcExact_sub c d A B]

theorem pfcExact_flat (c A : Rat) : pfcExact c A A = A := by rw [pfcExact_eq, sub_self, mul_zero, add_zero]

/-- Settles O39: on a flat range the one rounding is that of `cal_min`'s own value, which `rne32` returns. -/
theorem invertedAndFlatRanges : Obligations.InvertedAndFlatRanges := by
  refine ⟨fun _ _ _ _ => pfcExact_strictAnti, pfcExact_flat, fun c a b A ha hb => ?_⟩
  obtain ⟨hown, hzero⟩ := roundingReturnsItsOwnNumbers a A ha
  rw [pfc_of_values ha hb, pfcExact_flat]
  exact ⟨fun h => congrArg some (hown h), fun h => congrArg some (hzero h)⟩

/-- Settles O36: R86's decimals are the model's constants, and its second form is `pfcExact_eq`. -/
theorem pressureExactForms : Obligations.PressureExactForms := by
  obtain ⟨hmin, hmax, -⟩ := pressureConstants
  refine fun c A B => ⟨by rw [pfcExact, hmin, hmax], ?_⟩
  rw [pfcExact_eq]
  ring

/-- Settles O37: each point is `pfcExact_eq` at its count, and the ends differ from `A` and `B` by a multiple of `B - A` of known sign. -/
theorem pressureExactPoints : Obligations.PressureExactPoints := by
  intro A B
  have hlow : pfcExact 0 A B = A - (B - A) / 8 := by rw [pfcExact_eq]; ring
  have hhigh : pfcExact 16383 A B = A + 73723 * (B - A) / 65536 := by rw [pfcExact_eq]; ring
  refine ⟨hlow, hhigh, ?_, ?_, ?_, ?_, ?_, ?_, fun hAB => ?_, fun hBA => ?_, fun c a b hA hB => pfc_of_values hA hB c⟩
  iterate 6 · rw [pfcExact_eq]; ring
  · rw [hlow, hhigh]
    constructor <;> linarith
  · rw [hlow, hhigh]
    constructor <;> linarith

theorem pressureOut_of_pfc {s : State} {w : Binary32} (h : pfc s.pressureCount s.calMin s.calMax = some w) : pressureOut s = w := by
  rw [pressureOut, h, Option.getD_some]

/-- Settles O38: under a finite calibration the output is `PFC`'s value, whose exact value has the second form of R86. -/
theorem pressureOutput : Obligations.PressureOutput := by
  intro s A B hA hB
  have hpfc := pfc_of_values hA hB s.pressureCount
  have hout : (outputs s).pressure = rne32 (pfcExact s.pressureCount.toNat A B) := pressureOut_of_pfc hpfc
  rw [hout, ← (pressureExactForms _ A B).2]
  exact ⟨rfl, hpfc⟩

theorem pfc_of_no_value {a b : Binary32} (h : val32 a = none ∨ val32 b = none) (c : PressureCount) : pfc c a b = none := by
  rcases h with ha | hb
  · simp only [pfc, ha]
  · cases ha : val32 a <;> simp only [pfc, ha, hb]

theorem isFinite_of_val32_none {w : Binary32} (h : val32 w = none) : isFinite w = false := by
  rw [← Bool.not_eq_true]
  intro hfinite
  cases (val32_of_finite hfinite).symm.trans h

theorem launch_of_no_value {a b : Binary32} (h : val32 a = none ∨ val32 b = none) (r : StatusCode) (words : List ControlWord) :
    launch a b r words = .refused .nonFiniteCalibration := by
  have hillegal : (isFinite a && isFinite b) = false :=
    Bool.and_eq_false_iff.2 (h.imp isFinite_of_val32_none isFinite_of_val32_none)
  rw [launch, hillegal]
  rfl

/-- Settles O42: without a value `PFC` is none, so that the output is the edge's free value, and a word without one is not finite. -/
theorem nonFiniteCalibrationLeavesPressureOpen : Obligations.NonFiniteCalibrationLeavesPressureOpen := by
  refine fun s words h => ⟨?_, launch_of_no_value h _ words⟩
  rw [outputs, pressureOut, pfc_of_no_value h, Option.getD_none]

/-- Settles O47: with a legal calibration `PFC` has a value, so that the pressure does not show the edge. -/
theorem conversionsArePure : Obligations.ConversionsArePure := by
  intro s t hp ht hmin hmax hlegal
  obtain ⟨w, hw⟩ := pfc_of_legal hlegal
  have hw' : pfc t.pressureCount t.calMin t.calMax = some w := by rw [← hp, ← hmin, ← hmax, hw]
  exact ⟨(pressureOut_of_pfc hw).trans (pressureOut_of_pfc hw').symm, congrArg tfc ht⟩

/-! ### The temperature conversion -/

theorem tfcExact_eq (c : Rat) : tfcExact c = 200 * c / 2047 - 50 := by
  rw [tfcExact, temperatureDenominator, temperatureSpan, temperatureOffset]
  ring

/-- Settles O43: the first form is the definition, with its constants. -/
theorem temperatureExactForms : Obligations.TemperatureExactForms := fun c => ⟨rfl, tfcExact_eq c⟩

/-- Settles O44: the output is `TFC` of the held count, in every state. -/
theorem temperatureOutput : Obligations.TemperatureOutput := fun s => congrArg rne32 (tfcExact_eq s.temperatureCount.toNat)

theorem tfcExact_zero : tfcExact 0 = -50 := by norm_num [tfcExact_eq]

theorem tfcExact_last : tfcExact 2047 = 150 := by norm_num [tfcExact_eq]

/-- A count whose exact temperature is a non-zero binary32 number gives that number's word. -/
theorem tfc_of_val32 {c : TemperatureCount} {w : Binary32} {v : Rat} (hv : val32 w = some v) (hne : v ≠ 0)
    (h : tfcExact c.toNat = v) : tfc c = w := by
  rw [tfc, h]
  exact (roundingReturnsItsOwnNumbers w v hv).1 hne

/-- Settles O45: -50 and 150 are binary32 numbers, so the rounding returns them. -/
theorem temperatureEndPoints : Obligations.TemperatureEndPoints := by
  have hlow : val32 0xC2480000#32 = some (-50) := by decide +kernel
  have hhigh : val32 0x43160000#32 = some 150 := by decide +kernel
  exact ⟨tfc_of_val32 hlow (by norm_num) tfcExact_zero, hlow, tfc_of_val32 hhigh (by norm_num) tfcExact_last, hhigh⟩

theorem tfcExact_strictMono : StrictMono tfcExact := fun c d h => by
  rw [tfcExact_eq, tfcExact_eq]
  linarith

/-- At a count, the exact temperature is an odd multiple of 50/2047. -/
theorem tfcExact_natCast (c : Nat) : tfcExact c = 50 / 2047 * ((4 * c - 2047 : Int) : Rat) := by
  rw [tfcExact_eq]
  push_cast
  ring

theorem tfcExact_511 : tfcExact 511 = -150 / 2047 := by norm_num [tfcExact_eq]

theorem tfcExact_512 : tfcExact 512 = 50 / 2047 := by norm_num [tfcExact_eq]

/-- An odd multiple of 50/2047 is at least 50/2047 away from zero. -/
theorem abs_tfcExact_ge (c : Nat) : 50 / 2047 ≤ |tfcExact c| := by
  have hodd : (1 : Int) ≤ |4 * (c : Int) - 2047| := Int.one_le_abs (by omega)
  have hcast : (1 : Rat) ≤ |((4 * c - 2047 : Int) : Rat)| := by exact_mod_cast hodd
  rw [tfcExact_natCast, abs_mul, abs_of_pos (by norm_num)]
  linarith

/-- The exact value is positive from the count 512 on, so 511 is the last count at which it can be negative. -/
theorem tfcExact_le_of_neg {c : Nat} (h : tfcExact c < 0) : tfcExact c ≤ tfcExact 511 := by
  refine tfcExact_strictMono.monotone ?_
  have hbelow : tfcExact c < tfcExact (512 : Nat) := h.trans (by norm_num [tfcExact_512])
  have hcount := Nat.cast_lt.1 (tfcExact_strictMono.lt_iff_lt.1 hbelow)
  exact_mod_cast Nat.le_of_lt_succ hcount

theorem abs_tfcExact_le (c : TemperatureCount) : |tfcExact c.toNat| ≤ 150 := by
  have hlast : (c.toNat : Rat) ≤ 2047 := by exact_mod_cast Nat.le_of_lt_succ c.isLt
  have hlow := tfcExact_strictMono.monotone (Nat.cast_nonneg (α := Rat) c.toNat)
  have hhigh := tfcExact_strictMono.monotone hlast
  rw [tfcExact_zero] at hlow
  rw [tfcExact_last] at hhigh
  exact abs_le.2 ⟨by linarith, hhigh⟩

/-- Settles O46: at a count the exact value is between 50/2047 and 150 in magnitude, far from the subnormals and from the overflow. -/
theorem temperatureRange : Obligations.TemperatureRange := by
  refine ⟨fun _ _ h => tfcExact_strictMono h, tfcExact_zero, tfcExact_last, tfcExact_511, tfcExact_512, fun c => ?_, fun c => ?_⟩
  · have haway := abs_tfcExact_ge c
    refine ⟨abs_pos.1 (lt_of_lt_of_le (by norm_num) haway), ?_, tfcExact_le_of_neg⟩
    rw [tfcExact_512, abs_of_pos (by norm_num)]
    exact haway
  · have hbounded : |tfcExact c.toNat| < 2 ^ 128 - 2 ^ 103 := (abs_tfcExact_le c).trans_lt (by norm_num)
    have hnormal : exponentField (tfc c) ≠ 0#8 :=
      exponentField_rne32_ne_zero (le_trans (by norm_num) (abs_tfcExact_ge c.toNat))
    obtain ⟨v, hv, -⟩ := val32_rne32 hbounded
    exact ⟨(isFinite_rne32_iff _).2 hbounded, hnormal, v, hv, val32_ne_zero_of_exponentField hv hnormal⟩

end Sys2Proof.Machine
end

section
/-! What the output ports show between RESET and the first DECODE, and when `status_valid` is 1 (42_readout.md R102, R105). -/

namespace Sys2Proof.Machine

/-! ### Between RESET and the first DECODE -/

/-- RESET leaves the values the invariant asks for, HOLD keeps every register and parameter, and after a DECODE the invariant asks for
nothing. -/
theorem step_keeps_quietUntilDecoded {s t : State} (hs : s.quietUntilDecoded) (h : step s = .next t) : t.quietUntilDecoded := by
  obtain ⟨-, rfl⟩ | ⟨-, rfl⟩ | ⟨-, rfl⟩ | ⟨hw, -, -⟩ := step_cases h
  · exact fun _ => ⟨rfl, rfl, rfl⟩
  · exact hs
  · exact fun hinvalid => nomatch hinvalid
  · exact fun hinvalid => nomatch hinvalid.symm.trans (step_statusValid_of_decode hw h)

/-- Settles O25: every step keeps the invariant, and so does every run. -/
theorem everyStepKeepsQuietUntilDecoded : Obligations.EveryStepKeepsQuietUntilDecoded :=
  ⟨fun _ _ => step_keeps_quietUntilDecoded, run_keeps fun _ _ => step_keeps_quietUntilDecoded⟩

/-- Settles O23: the invariant gives both counts as 0, where the conversions have the values of R89 and R96. -/
theorem outputsBeforeFirstDecode : Obligations.OutputsBeforeFirstDecode := by
  intro s A B hquiet hinvalid hA hB
  obtain ⟨hstatus, hp, ht⟩ := hquiet hinvalid
  obtain ⟨hzero, -⟩ := pressureExactPoints A B
  obtain ⟨hcold, -⟩ := temperatureEndPoints
  refine ⟨hstatus, hp, ht, ?_, ?_⟩
  · calc (outputs s).pressure = rne32 (pfcExact s.pressureCount.toNat A B) := pressureOut_of_pfc (pfc_of_values hA hB _)
      _ = rne32 (pfcExact 0 A B) := by rw [hp]; rfl
      _ = rne32 (A - (B - A) / 8) := by rw [hzero]
  · calc (outputs s).temperature = tfc 0#11 := congrArg tfc ht
      _ = 0xC2480000#32 := hcold

/-! ### `status_valid` over a run -/

/-- The control word asks for an operation that writes `b` to `status_valid` (10_state.md R22). -/
def writesStatusValid (b : Bool) (cw : ControlWord) : Bool :=
  match b with
  | false => isResetWord cw
  | true => isDecodeWord cw

theorem step_statusValid_of_write {b : Bool} {s t : State} (hw : writesStatusValid b (sampledWord s) = true)
    (h : step s = .next t) : t.statusValid = b := by
  cases b with
  | false =>
    cases (step_of_reset hw).symm.trans h
    rfl
  | true => exact step_statusValid_of_decode hw h

theorem step_writes_of_statusValid_ne {s t : State} (h : step s = .next t) (hne : t.statusValid ≠ s.statusValid) :
    writesStatusValid t.statusValid (sampledWord s) = true := by
  obtain ⟨-, hwriter, -⟩ := onlyItsWritersChangeARegister s t h
  obtain ⟨hw, ht⟩ | ⟨hw, ht⟩ := hwriter hne
  · rw [ht]; exact hw
  · rw [ht]; exact hw

/-- Only a word that writes the other value can end a value of `status_valid`. -/
theorem step_keeps_statusValid {b : Bool} {s t : State} (hw : writesStatusValid (!b) (sampledWord s) = false)
    (hs : s.statusValid = b) (h : step s = .next t) : t.statusValid = b := by
  by_contra hne
  have hwrite := step_writes_of_statusValid_ne h (hs ▸ hne)
  rw [Bool.eq_not.2 hne, hw] at hwrite
  cases hwrite

/-- A word that writes `status_valid` sets it for the rest of the run, as long as no later word writes the other value. -/
theorem run_statusValid_of_write {b : Bool} {before after : List ControlWord} {cw : ControlWord} {s t : State}
    (hcw : writesStatusValid b cw = true) (hafter : ∀ w ∈ after, writesStatusValid (!b) w = false)
    (h : run (before ++ cw :: after).length (drive (before ++ cw :: after) s) = .next t) : t.statusValid = b := by
  obtain ⟨u, v, -, hword, hv, hvin, hrun⟩ := run_cut_at before after cw s
  obtain ⟨t', ht', -, hvalid⟩ := run_words_keeps (P := fun w => w.statusValid = b) [] after v
    (fun _ _ hw => step_keeps_statusValid (hafter _ hw)) (by rw [hvin, List.append_nil])
    (step_statusValid_of_write (hword ▸ hcw) hv)
  cases (hrun.trans ht').symm.trans h
  exact hvalid

/-- Settles O29: RESET writes 0 and DECODE writes 1, each the only one to do so. -/
theorem statusValidFromFirstDecodeToReset : Obligations.StatusValidFromFirstDecodeToReset := by
  intro before after cw s
  obtain ⟨t, ht, -⟩ := run_words_next (before ++ cw :: after) [] (drive (before ++ cw :: after) s) (List.append_nil _).symm
  exact ⟨t, ht, fun hreset hafter => run_statusValid_of_write (b := false) hreset hafter ht,
    fun hdecode hafter => run_statusValid_of_write (b := true) hdecode hafter ht⟩

end Sys2Proof.Machine
end

section
/-! That the core raises no exception, and what a launch can do (60_exceptions.md R110). -/

namespace Sys2Proof.Machine

/-- Each of the four things an operation can do is a next state. -/
theorem exec_next (i : Instr) (s : State) : ∃ t, exec i s = .next t := by
  obtain ⟨-, h⟩ | ⟨-, h⟩ | ⟨_, -, h⟩ | ⟨_, -, h⟩ := exec_cases i s
  · exact ⟨_, h⟩
  · exact ⟨_, h⟩
  · exact ⟨_, h⟩
  · exact ⟨_, h⟩

/-- A launch with a finite calibration (70_reset_and_hazards.md R130); `launch_of_no_value` is the other case. -/
theorem launch_of_values {a b : Binary32} {A B : Rat} (ha : val32 a = some A) (hb : val32 b = some B) (r : StatusCode)
    (words : List ControlWord) :
    launch a b r words =
      .next { State.reset with status := r, calMin := a, calMax := b, statusReset := r, inputs := words } := by
  rw [launch, isFinite_of_val32 ha, isFinite_of_val32 hb]
  rfl

theorem no_value_of_launch_refused {a b : Binary32} {r : StatusCode} {words : List ControlWord} {why : Refusal}
    (h : launch a b r words = .refused why) : val32 a = none ∨ val32 b = none := by
  cases ha : val32 a with
  | none => exact .inl rfl
  | some A =>
    cases hb : val32 b with
    | none => exact .inr rfl
    | some B => cases (launch_of_values ha hb r words).symm.trans h

/-- Settles O19: every operation is one of four next states, and only a calibration word without a value stops a launch. -/
theorem noOperationFaults : Obligations.NoOperationFaults := by
  refine ⟨fun s => ?_, exec_next, nofun, fun a b r words => ⟨⟨?_, ?_⟩, ?_⟩⟩
  · obtain ⟨t, ht, -⟩ := step_next s
    exact ⟨t, ht⟩
  · rintro ⟨_, hrefused⟩
    exact no_value_of_launch_refused hrefused
  · exact fun h => ⟨_, launch_of_no_value h r words⟩
  · exact fun h => launch_of_no_value h r words

end Sys2Proof.Machine
end

section
/-! Reset, launch and held inputs: what RESET erases, edges that only pass, and a frame decoded again
(70_reset_and_hazards.md R130 to R138). -/

namespace Sys2Proof.Machine

/-! ### RESET and launch -/

/-- RESET reads nothing but the parameters: what the registers held before has no part in the state it leaves. -/
theorem step_drive_reset_congr {cw : ControlWord} (rest : List ControlWord) {s s' : State} (hw : isResetWord cw = true)
    (hparameters : s.hasParametersOf s') (hedge : s.edge = s'.edge) :
    step (drive (cw :: rest) s) = step (drive (cw :: rest) s') := by
  obtain ⟨hmin, hmax, hreset⟩ := hparameters
  rw [step_drive_reset rest s hw, step_drive_reset rest s' hw, hmin, hmax, hreset, hedge]

theorem run_succ_congr (k : Nat) {s s' : State} (h : step s = step s') : run (k + 1) s = run (k + 1) s' := by
  simp only [run, h]

/-- Settles O21: the first edge already leaves one state for both, and a run goes on from that state. -/
theorem resetErasesThePast : Obligations.ResetErasesThePast := by
  intro cw words s s' hw hmin hmax hreset hedge
  obtain ⟨t, ht, -⟩ := run_words_next (cw :: words) [] (drive (cw :: words) s) (List.append_nil _).symm
  have hstep := step_drive_reset_congr words hw ⟨hmin, hmax, hreset⟩ hedge
  exact ⟨t, ht, (run_succ_congr words.length hstep).symm.trans ht⟩

/-- Settles O22: the state a finite calibration launches holds the values RESET writes. -/
theorem launchStartsFromReset : Obligations.LaunchStartsFromReset := by
  intro a b r words A B ha hb
  refine ⟨_, launch_of_values ha hb r words, rfl, rfl, rfl, rfl, ?_, exec_reset _ _ _⟩
  rw [State.calibrationLegal, isFinite_of_val32 ha, isFinite_of_val32 hb]
  rfl

/-! ### Edges that change no register -/

/-- `takeEdge`, `k` times over: the state after `k` edges at which no register has changed. -/
def takeEdges (k : Nat) (s : State) : State := { s with inputs := s.inputs.drop k, edge := s.edge + k }

theorem takeEdge_takeEdges (k : Nat) (s : State) : takeEdge (takeEdges k s) = takeEdges (k + 1) s := by
  rw [takeEdge, takeEdges, List.tail_drop]
  rfl

/-- If each of `k` edges does no more than pass, the run does no more than let `k` edges pass. -/
theorem run_eq_takeEdges {k : Nat} {s : State}
    (h : ∀ j < k, step (takeEdges j s) = .next (takeEdge (takeEdges j s))) : run k s = .next (takeEdges k s) := by
  induction k with
  | zero => rfl
  | succ k ih =>
    have hk : run k s = .next (takeEdges k s) := ih fun j hj => h j (Nat.lt_succ_of_lt hj)
    calc run (k + 1) s = run 1 (takeEdges k s) := run_add 1 hk
      _ = .next (takeEdge (takeEdges k s)) := run_succ 0 (h k (Nat.lt_succ_self k))
      _ = .next (takeEdges (k + 1) s) := by rw [takeEdge_takeEdges]

theorem isHoldWord_idleWord : isHoldWord idleWord = true := by decide

/-- Settles O26: an empty list of inputs stays empty, so that each edge samples the idle word and performs HOLD. -/
theorem undrivenEdgesHold : Obligations.UndrivenEdgesHold := by
  intro k s hs
  have hempty (j : Nat) : (takeEdges j s).inputs = [] := by rw [takeEdges, hs, List.drop_nil]
  have hhold : ∀ j < k, step (takeEdges j s) = .next (takeEdge (takeEdges j s)) := fun j _ =>
    step_of_hold (by rw [sampledWord, hempty]; exact isHoldWord_idleWord)
  rw [run_eq_takeEdges hhold, takeEdges, hs, List.drop_nil, ← hs]

/-! ### A held strobe -/

/-- The registers are as a DECODE of `cw` leaves them (40_frame_decoder.md R73 to R77). -/
def State.hasDecoded (s : State) (cw : ControlWord) : Prop :=
  s.status = cw.extractLsb' 30 2 ∧ s.statusValid = true ∧
  (isNormalWord cw = true → s.holdsCounts (cw.extractLsb' 16 14) (cw.extractLsb' 5 11))

theorem step_hasDecoded {s t : State} (hw : isDecodeWord (sampledWord s) = true) (h : step s = .next t) :
    t.hasDecoded (sampledWord s) :=
  ⟨step_status_of_decode hw h, step_statusValid_of_decode hw h, fun hn => step_counts_of_normal hn h⟩

theorem recordStatus_eq_self {frame : Frame} {s : State} (hstatus : s.status = statusField frame)
    (hvalid : s.statusValid = true) : recordStatus frame s = s := by
  rw [recordStatus, ← hstatus, ← hvalid]

theorem writeCounts_eq_self {p : PressureCount} {c : TemperatureCount} {s : State} (h : s.holdsCounts p c) :
    writeCounts p c s = s := by
  obtain ⟨rfl, rfl⟩ := h
  rfl

/-- A frame decoded again finds in the registers what it would write. -/
theorem step_of_hasDecoded {s : State} (hw : isDecodeWord (sampledWord s) = true) (hs : s.hasDecoded (sampledWord s)) :
    step s = .next (takeEdge s) := by
  obtain ⟨hstatus, hvalid, hcounts⟩ := hs
  have hrecord : recordStatus (framePort (sampledWord s)) (takeEdge s) = takeEdge s :=
    recordStatus_eq_self (s := takeEdge s) (hstatus.trans (statusField_framePort _).symm) hvalid
  cases hn : isNormalWord (sampledWord s) with
  | true => rw [step_of_normal hn, hrecord, writeCounts_eq_self (s := takeEdge s) (hcounts hn)]
  | false => rw [step_of_nonNormal hw hn, hrecord]

/-- As long as `cw` is held, it is the word sampled. -/
theorem sampledWord_takeEdges_of_replicate {n j : Nat} (hj : j < n) {cw : ControlWord} {rest : List ControlWord} {s : State}
    (hs : s.inputs = List.replicate n cw ++ rest) : sampledWord (takeEdges j s) = cw := by
  have hdrop : s.inputs.drop j = cw :: (List.replicate (n - j - 1) cw ++ rest) := by
    rw [hs, List.drop_append_of_le_length (by simpa using hj.le), List.drop_replicate,
      ← Nat.sub_add_cancel (Nat.sub_pos_of_lt hj), List.replicate_succ]
    rfl
  rw [sampledWord, takeEdges, hdrop]
  rfl

theorem run_of_hasDecoded {n : Nat} {cw : ControlWord} {rest : List ControlWord} {s : State} (hw : isDecodeWord cw = true)
    (hs : s.hasDecoded cw) (hinputs : s.inputs = List.replicate n cw ++ rest) : run n s = .next (takeEdges n s) := by
  refine run_eq_takeEdges fun j hj => ?_
  have hword := sampledWord_takeEdges_of_replicate hj hinputs
  exact step_of_hasDecoded (hword ▸ hw) (by rw [hword]; exact hs)

/-- Settles O33: the first edge leaves the frame decoded, with the other strobes of it to come, and these change no register. -/
theorem heldStrobeChangesNothingMore : Obligations.HeldStrobeChangesNothingMore := by
  intro n cw rest s hw
  obtain ⟨t, ht⟩ := step_drive_cons cw s
  have hfirst : step (drive (List.replicate (n + 1) cw ++ rest) s) = .next (drive (List.replicate n cw ++ rest) t) :=
    ht (List.replicate n cw ++ rest)
  have hdecoded : (drive (List.replicate n cw ++ rest) t).hasDecoded cw :=
    step_hasDecoded (s := drive (List.replicate (n + 1) cw ++ rest) s) hw hfirst
  refine ⟨drive rest t, ht rest, ?_⟩
  rw [run_succ n hfirst, run_of_hasDecoded hw hdecoded rfl, takeEdges, drive_inputs,
    List.drop_left' List.length_replicate]
  rfl

/-! ### Stale counts -/

/-- After a DECODE, `countsAreFresh` tells whether its frame was a Normal one. -/
theorem countsAreFresh_of_decode {s t : State} (hw : isDecodeWord (sampledWord s) = true) (h : step s = .next t) :
    t.countsAreFresh = isNormalWord (sampledWord s) := by
  rw [State.countsAreFresh, step_statusValid_of_decode hw h, step_status_of_decode hw h, isNormalWord, hw]

theorem outputs_recordStatus (frame : Frame) (s : State) :
    outputs (recordStatus frame s) = { outputs s with status := statusField frame, statusValid := true } := rfl

/-- Settles O34: a Normal frame's counts are written; another frame's edge records its status and, the calibration being legal,
shows no more than that. -/
theorem staleCountsAreTold : Obligations.StaleCountsAreTold := by
  intro cw rest s hw hlegal
  obtain ⟨t, ht, -⟩ := step_next (drive (cw :: rest) s)
  have hfresh : t.countsAreFresh = isNormalWord cw := countsAreFresh_of_decode (s := drive (cw :: rest) s) hw ht
  refine ⟨t, ht, by rw [hfresh], fun hnormal => ?_, fun hother => ?_⟩
  · exact step_counts_of_normal (s := drive (cw :: rest) s) (hfresh ▸ hnormal) ht
  · cases (step_of_nonNormal (s := drive (cw :: rest) s) hw (hfresh ▸ hother)).symm.trans ht
    rw [outputs_recordStatus, outputs_takeEdge (s := drive (cw :: rest) s) hlegal, outputs_drive]
    exact ⟨rfl, rfl, rfl, rfl⟩

end Sys2Proof.Machine
end
